-- ==== Sys2Proof/Word.lean ====
section
/-! DEFINITION. The words of the LS-8: bytes and register numbers (spec 00_scope.md R104, R105). -/

namespace Sys2Proof

/-- A byte: the contents of a register, of the pc, of FL or of a memory cell, and an address
(R104: every width is 8 bits; arithmetic wraps modulo 256). -/
abbrev Byte := BitVec 8

/-- The number of a general register, R0 to R7 (R104, R110). -/
abbrev Reg := Fin 8

end Sys2Proof
end

