-- ==== Sys2Proof/Syntax.lean ====
section
/-! DEFINITION. The instructions: one constructor per row of spec/opcode_table.json. -/

namespace Sys2Proof

/-- An instruction with the operand bytes its length gives it (R140, R142: none, A, or A and B).
The bytes are the raw ones, since the handler itself checks a register-index operand (R144, R164)
and an unimplemented opcode never looks at its operands (R210). The fetched bytes past the
instruction's length are not part of it (R145). -/
inductive Instr where
  /-- 0x00, R205. -/
  | nop
  /-- 0x01, R206. -/
  | hlt
  /-- 0x11, R189. -/
  | ret
  /-- 0x13, R204, unimplemented. -/
  | iret
  /-- 0x45, R185: `a` names the source register. -/
  | push (a : Byte)
  /-- 0x46, R186: `a` names the destination register. -/
  | pop (a : Byte)
  /-- 0x47, R201: `a` names the source register. -/
  | prn (a : Byte)
  /-- 0x48, R202: `a` names the source register. -/
  | pra (a : Byte)
  /-- 0x50, R188: `a` names the register holding the target. -/
  | call (a : Byte)
  /-- 0x52, R203, unimplemented. -/
  | int (a : Byte)
  /-- 0x54, R192: `a` names the register holding the target. -/
  | jmp (a : Byte)
  /-- 0x55, R193: `a` names the register holding the target. -/
  | jeq (a : Byte)
  /-- 0x56, R194: `a` names the register holding the target. -/
  | jne (a : Byte)
  /-- 0x57, R196, unimplemented. -/
  | jgt (a : Byte)
  /-- 0x58, R198, unimplemented. -/
  | jlt (a : Byte)
  /-- 0x59, R199, unimplemented. -/
  | jle (a : Byte)
  /-- 0x5A, R197, unimplemented. -/
  | jge (a : Byte)
  /-- 0x65, R169: `a` names the register. -/
  | inc (a : Byte)
  /-- 0x66, R170: `a` names the register. -/
  | dec (a : Byte)
  /-- 0x69, R177, unimplemented. -/
  | not (a : Byte)
  /-- 0x82, R181: `a` names the destination register, `b` is the immediate byte. -/
  | ldi (a b : Byte)
  /-- 0x83, R182: `a` names the destination register, `b` the register holding the address. -/
  | ld (a b : Byte)
  /-- 0x84, R183, unimplemented. -/
  | st (a b : Byte)
  /-- 0xA0, R167: `a` names the destination and first source, `b` the second source. -/
  | add (a b : Byte)
  /-- 0xA1, R171, unimplemented. -/
  | sub (a b : Byte)
  /-- 0xA2, R168: `a` names the destination and first source, `b` the second source. -/
  | mul (a b : Byte)
  /-- 0xA3, R172, unimplemented. -/
  | div (a b : Byte)
  /-- 0xA4, R173, unimplemented. -/
  | mod (a b : Byte)
  /-- 0xA7, R190: `a` and `b` name the registers compared. -/
  | cmp (a b : Byte)
  /-- 0xA8, R174, unimplemented. -/
  | and (a b : Byte)
  /-- 0xAA, R175, unimplemented. -/
  | or (a b : Byte)
  /-- 0xAB, R176, unimplemented. -/
  | xor (a b : Byte)
  /-- 0xAC, R178, unimplemented. -/
  | shl (a b : Byte)
  /-- 0xAD, R179, unimplemented. -/
  | shr (a b : Byte)
deriving DecidableEq, Repr

end Sys2Proof
end

