-- ==== Sys2Proof/WellFormed.lean ====
section
/-! DEFINITION. When an instruction is well formed: the bytes it uses as register indices name
registers (spec 30_encoding.md R144, R145). -/

namespace Sys2Proof

/-- A register-index byte is legal when bits 7 to 3 are 0 (R144). -/
def legalRegisterByte (r : Byte) : Bool := r.extractLsb' 3 5 == 0#5

/-- The operand bytes the instruction uses as register indices, operand-A first (R145's table).
An unimplemented opcode uses none: it never looks at its operands (R210). -/
def Instr.registerOperands : Instr → List Byte
  | .nop | .hlt | .ret | .iret => []
  | .push a | .pop a | .prn a | .pra a | .call a => [a]
  | .int _ => []
  | .jmp a | .jeq a | .jne a => [a]
  | .jgt _ | .jlt _ | .jle _ | .jge _ => []
  | .inc a | .dec a => [a]
  | .not _ => []
  | .ldi a _ => [a]
  | .ld a b => [a, b]
  | .st _ _ => []
  | .add a b => [a, b]
  | .sub _ _ => []
  | .mul a b => [a, b]
  | .div _ _ | .mod _ _ => []
  | .cmp a b => [a, b]
  | .and _ _ | .or _ _ | .xor _ _ | .shl _ _ | .shr _ _ => []

/-- Every byte used as a register index is legal. -/
def Instr.wf (i : Instr) : Bool := i.registerOperands.all legalRegisterByte

end Sys2Proof
end

