-- ==== Sys2Proof/Decode.lean ====
section
/-! DEFINITION. From bytes to an instruction and back: the format fields, the dispatch table, the
decoder and the encoder (spec 30_encoding.md). The opcode values are the ones the spec supplies
(R146, D14; log 1). -/

namespace Sys2Proof

/-- The three bytes fetched at pc, pc+1 and pc+2, whatever the instruction's length (R140, R155). -/
structure Window where
  /-- The opcode byte. -/
  op : Byte
  /-- Operand-A. -/
  a : Byte
  /-- Operand-B. -/
  b : Byte
deriving DecidableEq, Repr

/-- The window over a sequence of bytes; a byte that is not there reads 0. -/
def windowOf (bytes : List Byte) : Window :=
  ⟨bytes.getD 0 0, bytes.getD 1 0, bytes.getD 2 0⟩

/-- The three bytes of a window in address order (R128). -/
def Window.bytes (w : Window) : List Byte := [w.op, w.a, w.b]

/-- op[7:6], the number of operand bytes (R141, R142). -/
def operandCount (op : Byte) : Nat := (op.extractLsb' 6 2).toNat

/-- op[5], set for an ALU instruction (R141, R142). -/
def isAlu (op : Byte) : Bool := op.getLsbD 5

/-- op[4], set when the handler itself updates pc (R141, R142). -/
def setsPc (op : Byte) : Bool := op.getLsbD 4

/-- The length of an instruction in bytes, from its opcode byte alone (R140, R151). -/
def instrLength (op : Byte) : Nat := 1 + operandCount op

/-- The three kinds of opcode byte (R150). -/
inductive OpcodeStatus where
  | implemented
  | unimplemented
  | unknown
deriving DecidableEq, Repr

/-- One entry of the dispatch table (R146): the opcode byte, whether it has a real handler, and the
instruction its two operand bytes give. -/
structure DispatchRow where
  /-- The opcode byte; the table's mask is 0xFF in every row. -/
  opcode : Byte
  /-- Whether the entry has a handler or the placeholder. -/
  status : OpcodeStatus
  /-- The instruction, given both fetched operand bytes. -/
  instr : Byte → Byte → Instr

/-- The opcodes with no operand byte. -/
def dispatchRows0 : List DispatchRow :=
  [⟨0x00, .implemented, fun _ _ => .nop⟩,
   ⟨0x01, .implemented, fun _ _ => .hlt⟩,
   ⟨0x11, .implemented, fun _ _ => .ret⟩,
   ⟨0x13, .unimplemented, fun _ _ => .iret⟩]

/-- The opcodes with one operand byte. -/
def dispatchRows1 : List DispatchRow :=
  [⟨0x45, .implemented, fun a _ => .push a⟩,
   ⟨0x46, .implemented, fun a _ => .pop a⟩,
   ⟨0x47, .implemented, fun a _ => .prn a⟩,
   ⟨0x48, .implemented, fun a _ => .pra a⟩,
   ⟨0x50, .implemented, fun a _ => .call a⟩,
   ⟨0x52, .unimplemented, fun a _ => .int a⟩,
   ⟨0x54, .implemented, fun a _ => .jmp a⟩,
   ⟨0x55, .implemented, fun a _ => .jeq a⟩,
   ⟨0x56, .implemented, fun a _ => .jne a⟩,
   ⟨0x57, .unimplemented, fun a _ => .jgt a⟩,
   ⟨0x58, .unimplemented, fun a _ => .jlt a⟩,
   ⟨0x59, .unimplemented, fun a _ => .jle a⟩,
   ⟨0x5A, .unimplemented, fun a _ => .jge a⟩,
   ⟨0x65, .implemented, fun a _ => .inc a⟩,
   ⟨0x66, .implemented, fun a _ => .dec a⟩,
   ⟨0x69, .unimplemented, fun a _ => .not a⟩]

/-- The opcodes with two operand bytes. -/
def dispatchRows2 : List DispatchRow :=
  [⟨0x82, .implemented, .ldi⟩,
   ⟨0x83, .implemented, .ld⟩,
   ⟨0x84, .unimplemented, .st⟩,
   ⟨0xA0, .implemented, .add⟩,
   ⟨0xA1, .unimplemented, .sub⟩,
   ⟨0xA2, .implemented, .mul⟩,
   ⟨0xA3, .unimplemented, .div⟩,
   ⟨0xA4, .unimplemented, .mod⟩,
   ⟨0xA7, .implemented, .cmp⟩,
   ⟨0xA8, .unimplemented, .and⟩,
   ⟨0xAA, .unimplemented, .or⟩,
   ⟨0xAB, .unimplemented, .xor⟩,
   ⟨0xAC, .unimplemented, .shl⟩,
   ⟨0xAD, .unimplemented, .shr⟩]

/-- The dispatch table: 34 entries (R146). -/
def dispatchTable : List DispatchRow := dispatchRows0 ++ dispatchRows1 ++ dispatchRows2

/-- The entry of an opcode byte, if it has one (R146, R157). -/
def dispatchEntry (op : Byte) : Option DispatchRow := dispatchTable.find? (·.opcode == op)

/-- What an opcode byte is (R150). -/
def opcodeStatus (op : Byte) : OpcodeStatus :=
  match dispatchEntry op with
  | some row => row.status
  | none => .unknown

/-- Why the decoder rejects a window. -/
inductive DecodeError where
  /-- The opcode byte has no entry in the dispatch table (R148, R157). -/
  | unknownOpcode (op : Byte)
deriving DecidableEq, Repr

/-- The instruction a fetched window holds. Total: every opcode byte with a table entry decodes,
whatever its operand bytes, and every other is rejected (R148, R157). -/
def decode (w : Window) : Except DecodeError Instr :=
  match dispatchEntry w.op with
  | some row => .ok (row.instr w.a w.b)
  | none => .error (.unknownOpcode w.op)

/-- The opcode byte of an instruction (R146). -/
def Instr.opcode : Instr → Byte
  | .nop => 0b00000000
  | .hlt => 0b00000001
  | .ret => 0b00010001
  | .iret => 0b00010011
  | .push _ => 0b01000101
  | .pop _ => 0b01000110
  | .prn _ => 0b01000111
  | .pra _ => 0b01001000
  | .call _ => 0b01010000
  | .int _ => 0b01010010
  | .jmp _ => 0b01010100
  | .jeq _ => 0b01010101
  | .jne _ => 0b01010110
  | .jgt _ => 0b01010111
  | .jlt _ => 0b01011000
  | .jle _ => 0b01011001
  | .jge _ => 0b01011010
  | .inc _ => 0b01100101
  | .dec _ => 0b01100110
  | .not _ => 0b01101001
  | .ldi _ _ => 0b10000010
  | .ld _ _ => 0b10000011
  | .st _ _ => 0b10000100
  | .add _ _ => 0b10100000
  | .sub _ _ => 0b10100001
  | .mul _ _ => 0b10100010
  | .div _ _ => 0b10100011
  | .mod _ _ => 0b10100100
  | .cmp _ _ => 0b10100111
  | .and _ _ => 0b10101000
  | .or _ _ => 0b10101010
  | .xor _ _ => 0b10101011
  | .shl _ _ => 0b10101100
  | .shr _ _ => 0b10101101

/-- The operand bytes of an instruction, operand-A first (R140, R142's shape table). -/
def Instr.operands : Instr → List Byte
  | .nop | .hlt | .ret | .iret => []
  | .push a | .pop a | .prn a | .pra a | .call a | .int a | .jmp a | .jeq a | .jne a => [a]
  | .jgt a | .jlt a | .jle a | .jge a | .inc a | .dec a | .not a => [a]
  | .ldi a b | .ld a b | .st a b | .add a b | .sub a b | .mul a b | .div a b => [a, b]
  | .mod a b | .cmp a b | .and a b | .or a b | .xor a b | .shl a b | .shr a b => [a, b]

/-- The bytes of an instruction in increasing address order (R128, R140). -/
def encode (i : Instr) : List Byte := i.opcode :: i.operands

/-- The byte that names a register: `00000rrr` (R144, G4; log 1). -/
def registerByte (r : Reg) : Byte := BitVec.ofNat 8 r.val

/-- The window of an instruction whose `nbits` bits are `w`, numbered as the opcode table numbers
them (the opcode is bits 7 to 0, operand-A bits 15 to 8, operand-B bits 23 to 16); every bit above
`nbits` is 0. -/
def tableWindow (nbits w : Nat) : Window :=
  let v := w % 2 ^ nbits
  ⟨BitVec.ofNat 8 v, BitVec.ofNat 8 (v / 256), BitVec.ofNat 8 (v / 65536)⟩

/-- The instruction the decoder reads from a word numbered as the opcode table numbers it. -/
def decodeTableWord (nbits w : Nat) : Option Instr :=
  match decode (tableWindow nbits w) with
  | .ok i => some i
  | .error _ => none

end Sys2Proof
end

