-- ==== Sys2Proof/Config.lean ====
section
/-! DEFINITION. What is fixed for this hardware (spec 00_scope.md R104). The spec leaves no parameter
open, so there is no free value here. -/

namespace Sys2Proof.Config

/-- The register PUSH, POP, CALL and RET use as the stack pointer (R111). -/
def stackPointer : Reg := 7

/-- The number of memory cells: addresses 0 to 255 (R104, R120). -/
def memorySize : Nat := 256

/-- What a memory cell holds that neither the program image nor a store has written
(R124, the spec's decision D7; log 3). -/
def unlistedByte : Byte := 0

/-- The address of the first opcode byte (R124, R223). -/
def entryPoint : Byte := 0

end Sys2Proof.Config
end

