-- ==== Sys2Proof/Machine/State.lean ====
section
/-! DEFINITION. The state of the LS-8 core, whole, and its value at the start of a run
(spec 10_state.md). -/

namespace Sys2Proof.Machine

/-- The run state (R118, R119): RUNNING, or one of the two terminal states. -/
inductive RunState where
  | running
  | halted
  | faulted
deriving DecidableEq, Repr

/-- The three run faults of the core (R208). -/
inductive FaultKind where
  /-- R209: the opcode byte has no entry in the dispatch table. -/
  | unknownOpcode
  /-- R210: the opcode's entry is the unimplemented placeholder. -/
  | unimplementedOpcode
  /-- R211: a register-index operand the instruction uses is 8 to 255. -/
  | illegalRegister
deriving DecidableEq, Repr

/-- The fault record (R208). Its code is a function of its kind (`FaultKind.code`; log 7). -/
structure FaultRecord where
  /-- Which fault. -/
  kind : FaultKind
  /-- The address of the faulting opcode byte. -/
  pc : Byte
  /-- The opcode byte, or for an illegal register the offending operand byte. -/
  byte : Byte
deriving DecidableEq, Repr

/-- The kind of an output event (R200). -/
inductive OutputKind where
  /-- A decimal number (PRN). -/
  | num
  /-- A character (PRA). -/
  | char
deriving DecidableEq, Repr

/-- One event of the output port (R122, R200). -/
structure OutputEvent where
  /-- Number or character. -/
  kind : OutputKind
  /-- The byte printed. -/
  value : Byte
deriving DecidableEq, Repr

/-- Memory: the cells that differ from `Config.unlistedByte`, by rising address (R120). -/
abbrev Memory := List Host.Cell

/-- The whole state `(x[0..7], pc, FL, M[0..255], state, fault, out)` (10_state.md). -/
structure State where
  /-- The general registers R0 to R7 (R110). -/
  regs : Vector Byte 8
  /-- The program counter (R114). -/
  pc : Byte
  /-- The flags register FL (R116). -/
  fl : Byte
  /-- The 256 memory cells (R120). -/
  mem : Memory
  /-- The run state (R118, R119). -/
  runState : RunState
  /-- The fault record (R118, R208). -/
  fault : Option FaultRecord
  /-- The output port's events, oldest first (R122). -/
  out : List OutputEvent
deriving DecidableEq, Repr

/-- Why the machine has no step. Neither is the outcome of an instruction: an instruction's fault is
a next state whose run state is FAULTED (R163, R208; log 2). Both are safe: the core has no step
there. -/
inductive Fault where
  /-- Raised by `step` in the state HALTED, which has no outgoing transition (R119, R207). Safe. -/
  | coreHalted
  /-- Raised by `step` in the state FAULTED, which has no outgoing transition (R119, R216). Safe. -/
  | coreFaulted
deriving DecidableEq, Repr

/-- Why an instruction has no meaning in the model. No arm of `exec` answers so: all 34 have theirs. -/
inductive Refusal where
  /-- An instruction that has no meaning yet, by its mnemonic; raised by no definition. Safe. -/
  | notModelled (mnemonic : String)
deriving DecidableEq, Repr

/-- The state in which the core starts, with the empty program image (R124, R223; log 3, log 4). -/
def State.reset : State where
  regs := Vector.replicate 8 0
  pc := Config.entryPoint
  fl := 0
  mem := []
  runState := .running
  fault := none
  out := []

end Sys2Proof.Machine
end

