-- ==== Sys2Proof/Machine/Ops.lean ====
section
/-! DEFINITION. The named operations over memory, registers, the stack and the output port, the fetch,
the taking of a fault, and the phases of the cycle around a handler (spec 20_memory.md, 40_cycle.md,
60_exceptions.md). -/

namespace Sys2Proof.Machine

/-! ### Memory (20_memory.md) -/

/-- What the cell at `k` holds: its entry, or the unlisted byte. -/
def Memory.findCell : Memory → Nat → Byte
  | [], _ => Config.unlistedByte
  | (k', v) :: rest, k => if k' = k then v else findCell rest k

/-- The list without an entry for `k`. -/
def Memory.eraseCell : Memory → Nat → Memory
  | [], _ => []
  | (k', v) :: rest, k => if k' = k then eraseCell rest k else (k', v) :: eraseCell rest k

/-- The list with an entry for `k`, before the first entry of a higher address. -/
def Memory.insertCell : Memory → Nat → Byte → Memory
  | [], k, v => [(k, v)]
  | (k', v') :: rest, k, v =>
    if k' < k then (k', v') :: insertCell rest k v else (k, v) :: (k', v') :: rest

/-- MemRead(addr, 1) (R126). An address is a byte, so it is already modulo 256. -/
def Memory.readByte (m : Memory) (a : Byte) : Byte := m.findCell a.toNat

/-- MemWrite(addr, 1, v) (R126), in the canonical form: writing the unlisted byte drops the entry. -/
def Memory.writeByte (m : Memory) (a v : Byte) : Memory :=
  if v = Config.unlistedByte then m.eraseCell a.toNat
  else (m.eraseCell a.toNat).insertCell a.toNat v

/-- The canonical form from address `lo` on: addresses rising, inside the address space, and no
entry equal to the unlisted byte. -/
def Memory.wfFrom : Nat → Memory → Bool
  | _, [] => true
  | lo, (k, v) :: rest =>
    decide (lo ≤ k) && decide (k < Config.memorySize) && v != Config.unlistedByte
      && wfFrom (k + 1) rest

/-- The canonical form: equal memories are equal lists. -/
def Memory.wf (m : Memory) : Bool := Memory.wfFrom 0 m

/-- A sequence of bytes written to successive addresses from `a` on, modulo 256. -/
def Memory.writeBytes : Memory → Byte → List Byte → Memory
  | m, _, [] => m
  | m, a, v :: rest => writeBytes (m.writeByte a v) (a + 1) rest

/-! ### Registers, pc, FL, memory and the port as the handlers use them (R106) -/

/-- The read `x[r]`. -/
def State.reg (s : State) (r : Reg) : Byte := s.regs[r.val]

/-- The write `x[r] <- v`. No register is hard-wired (R110); a byte is already modulo 256 (R112). -/
def State.setReg (s : State) (r : Reg) (v : Byte) : State := { s with regs := s.regs.set r.val v }

/-- The write `pc <- target`. -/
def State.setPc (s : State) (target : Byte) : State := { s with pc := target }

/-- The write `FL <- v`. -/
def State.setFl (s : State) (v : Byte) : State := { s with fl := v }

/-- The read `MemRead(a, 1)`. -/
def State.load (s : State) (a : Byte) : Byte := s.mem.readByte a

/-- The write `MemWrite(a, 1, v)`. -/
def State.store (s : State) (a v : Byte) : State := { s with mem := s.mem.writeByte a v }

/-- `Output(kind, v)`: one event appended to the port (R122, R200). -/
def State.output (s : State) (k : OutputKind) (v : Byte) : State :=
  { s with out := s.out ++ [⟨k, v⟩] }

/-- `state <- HALTED` (R206). -/
def State.halt (s : State) : State := { s with runState := .halted }

/-! ### The stack (R111, R121, R137, R138) -/

/-- SP, another name for `x[7]`. -/
def State.sp (s : State) : Byte := s.reg Config.stackPointer

/-- The address a push writes: one below SP, modulo 256 (R137, R138). -/
def State.pushAddress (s : State) : Byte := s.sp - 1

/-- The first half of a push: SP is decremented. -/
def State.openSlot (s : State) : State := s.setReg Config.stackPointer s.pushAddress

/-- The second half of a push: the byte goes to the address SP now holds. -/
def State.storeTop (s : State) (v : Byte) : State := s.store s.sp v

/-- The most recently pushed byte (R121). -/
def State.top (s : State) : Byte := s.load s.sp

/-- The second half of a pop: SP is incremented. -/
def State.closeSlot (s : State) : State := s.setReg Config.stackPointer (s.sp + 1)

/-! ### Fetch (R155) -/

/-- The window at pc: three reads for every opcode, at addresses modulo 256 (R129, R155). -/
def fetch (s : State) : Window := ⟨s.load s.pc, s.load (s.pc + 1), s.load (s.pc + 2)⟩

/-! ### Taking a fault (R163, R208, R215) -/

/-- The code of a fault (R208; the numbering is the spec's own, D6). -/
def FaultKind.code : FaultKind → Nat
  | .unknownOpcode => 1
  | .unimplementedOpcode => 2
  | .illegalRegister => 3

/-- The code of a fault record (R208). -/
def FaultRecord.code (f : FaultRecord) : Nat := f.kind.code

/-- What a raised fault tells besides pc: its kind and the byte to record (R208). -/
structure Raise where
  /-- Which fault. -/
  kind : FaultKind
  /-- The byte to record. -/
  byte : Byte
deriving DecidableEq, Repr

/-- Taking a fault: `state <- FAULTED`, the record written, and nothing else changed. It is applied
to the state at the start of the step, so pc still holds the faulting opcode's address and nothing
the handler wrote is kept (R163, R215). There is no vector, no saved state and no return (R215, R216). -/
def State.takeFault (s : State) (r : Raise) : State :=
  { s with runState := .faulted, fault := some ⟨r.kind, s.pc, r.byte⟩ }

/-! ### The cycle around a handler (R160, R161) -/

/-- `r[2:0]`, the register a byte selects (R144). -/
def registerBits (r : Byte) : Reg := ⟨(r.extractLsb' 0 3).toNat, (r.extractLsb' 0 3).isLt⟩

/-- Phase 4, the ALU post-mask: `x[a[2:0]] <- x[a[2:0]] mod 256` when the opcode has bit 5 set
(R160). The identity on 8-bit registers; kept as the spec's cycle keeps it (D20). -/
def postMask (i : Instr) (s : State) : State :=
  if isAlu i.opcode then
    let r := registerBits (i.operands.headD 0)
    s.setReg r (BitVec.ofNat 8 ((s.reg r).toNat % 256))
  else s

/-- Phase 5, the default advance: `pc <- pc + 1 + operand_count` when `sets_pc` is 0 (R115, R161). -/
def advance (i : Instr) (s : State) : State :=
  if setsPc i.opcode then s else s.setPc (s.pc + BitVec.ofNat 8 (instrLength i.opcode))

/-- What the cycle makes of a handler's answer (R159 to R163): the handler's state through phases 4
and 5, or, when it raised a fault, the state at the start of the step with the fault taken. -/
def complete (i : Instr) (s : State) (handled : Except Raise State) :
    Host.Outcome State Fault Refusal :=
  match handled with
  | .ok t => .next (advance i (postMask i t))
  | .error r => .next (s.takeFault r)

/-- The step of a declared opcode whose handler is the placeholder: UnimplementedOpcode, before any
operand is examined (R149, R158, R210). -/
def unimplemented (i : Instr) (s : State) : Host.Outcome State Fault Refusal :=
  complete i s (.error ⟨.unimplementedOpcode, i.opcode⟩)

end Sys2Proof.Machine
end

