-- ==== Sys2Proof/Machine/Operands.lean ====
section
/-! DEFINITION. The operand forms (spec 30_encoding.md R143, R144; 42_load_store.md R184): register,
immediate, register-indirect. The fourth, the implicit stack, is in Machine/Ops.lean. -/

namespace Sys2Proof.Machine

/-- `reg(r)`: the register a register-index operand selects, or IllegalRegister with the offending
byte when `r[7:3] != 0` (R144, R164, R211). -/
def reg (r : Byte) : Except Raise Reg :=
  if r.extractLsb' 3 5 = 0#5 then .ok (registerBits r) else .error ⟨.illegalRegister, r⟩

/-- Two register-index operands, operand-A checked first (R164, R214). -/
def reg2 (a b : Byte) : Except Raise (Reg × Reg) :=
  match reg a with
  | .error e => .error e
  | .ok ra =>
    match reg b with
    | .error e => .error e
    | .ok rb => .ok (ra, rb)

/-- An immediate operand: the byte as it is, with no extension and no scaling (R143, R181). -/
def immediate (b : Byte) : Byte := b

/-- The register-indirect operand: the byte at the address the register holds, with no offset
(R182, R184). -/
def indirect (s : State) (r : Reg) : Byte := s.load (s.reg r)

/-- A handler with one register operand: what it writes, once the operand is checked. -/
def withReg (a : Byte) (handler : Reg → State) : Except Raise State :=
  match reg a with
  | .ok ra => .ok (handler ra)
  | .error e => .error e

/-- A handler with two register operands: what it writes, once both are checked. -/
def withReg2 (a b : Byte) (handler : Reg → Reg → State) : Except Raise State :=
  match reg2 a b with
  | .ok (ra, rb) => .ok (handler ra rb)
  | .error e => .error e

end Sys2Proof.Machine
end

