-- ==== Sys2Proof/Machine/Alu.lean ====
section
/-! DEFINITION. The ALU family (spec 41_alu.md). Every meaning here and in the other families is the
whole step after decoding: handler, post-mask and advance (`complete`). -/

namespace Sys2Proof.Machine

/-- ADD (R167). -/
def execAdd (a b : Byte) (s : State) : Host.Outcome State Fault Refusal :=
  complete (.add a b) s (withReg2 a b fun ra rb => s.setReg ra (s.reg ra + s.reg rb))

/-- MUL (R168): the low 8 bits of the product. -/
def execMul (a b : Byte) (s : State) : Host.Outcome State Fault Refusal :=
  complete (.mul a b) s (withReg2 a b fun ra rb => s.setReg ra (s.reg ra * s.reg rb))

/-- INC (R169). -/
def execInc (a : Byte) (s : State) : Host.Outcome State Fault Refusal :=
  complete (.inc a) s (withReg a fun ra => s.setReg ra (s.reg ra + 1))

/-- DEC (R170). -/
def execDec (a : Byte) (s : State) : Host.Outcome State Fault Refusal :=
  complete (.dec a) s (withReg a fun ra => s.setReg ra (s.reg ra - 1))

/-- SUB, unimplemented (R171). -/
def execSub (a b : Byte) (s : State) : Host.Outcome State Fault Refusal := unimplemented (.sub a b) s

/-- DIV, unimplemented (R172). -/
def execDiv (a b : Byte) (s : State) : Host.Outcome State Fault Refusal := unimplemented (.div a b) s

/-- MOD, unimplemented (R173). -/
def execMod (a b : Byte) (s : State) : Host.Outcome State Fault Refusal := unimplemented (.mod a b) s

/-- AND, unimplemented (R174). -/
def execAnd (a b : Byte) (s : State) : Host.Outcome State Fault Refusal := unimplemented (.and a b) s

/-- OR, unimplemented (R175). -/
def execOr (a b : Byte) (s : State) : Host.Outcome State Fault Refusal := unimplemented (.or a b) s

/-- XOR, unimplemented (R176). -/
def execXor (a b : Byte) (s : State) : Host.Outcome State Fault Refusal := unimplemented (.xor a b) s

/-- NOT, unimplemented (R177). -/
def execNot (a : Byte) (s : State) : Host.Outcome State Fault Refusal := unimplemented (.not a) s

/-- SHL, unimplemented (R178). -/
def execShl (a b : Byte) (s : State) : Host.Outcome State Fault Refusal := unimplemented (.shl a b) s

/-- SHR, unimplemented (R179). -/
def execShr (a b : Byte) (s : State) : Host.Outcome State Fault Refusal := unimplemented (.shr a b) s

end Sys2Proof.Machine
end

