-- ==== Sys2Proof/Machine/Flags.lean ====
section
/-! DEFINITION. The flags register FL (spec 10_state.md R116, R117; 44_compare_branch.md R190). -/

namespace Sys2Proof.Machine

/-- FL with only bit 0, Equal, set. -/
def flagsEqual : Byte := 0b001

/-- FL with only bit 1, Greater-Than, set. -/
def flagsGreater : Byte := 0b010

/-- FL with only bit 2, Less-Than, set. -/
def flagsLess : Byte := 0b100

/-- FL.E, bit 0 (R106, R116). -/
def State.flagE (s : State) : Bool := s.fl.getLsbD 0

/-- FL.G, bit 1. No implemented instruction reads it (R117). -/
def State.flagG (s : State) : Bool := s.fl.getLsbD 1

/-- FL.L, bit 2. No implemented instruction reads it (R117). -/
def State.flagL (s : State) : Bool := s.fl.getLsbD 2

/-- What CMP leaves in FL: cleared, then the bit of the unsigned three-way comparison of `x[A]` with
`x[B]` (R190; G means `x[A] > x[B]`, the spec's decision D9). -/
def compareFlags (x y : Byte) : Byte :=
  (if x = y then flagsEqual else 0) ||| (if y < x then flagsGreater else 0)
    ||| (if x < y then flagsLess else 0)

end Sys2Proof.Machine
end

