-- ==== Sys2Proof/Machine/Branch.lean ====
section
/-! DEFINITION. Comparison and jumps (spec 44_compare_branch.md). -/

namespace Sys2Proof.Machine

/-- CMP (R190): writes all of FL and no register. -/
def execCmp (a b : Byte) (s : State) : Host.Outcome State Fault Refusal :=
  complete (.cmp a b) s (withReg2 a b fun ra rb => s.setFl (compareFlags (s.reg ra) (s.reg rb)))

/-- Where a conditional jump falls through to: the address after its one operand (R152). -/
def fallThrough (s : State) : Byte := s.pc + 2

/-- A jump that is taken when `taken` holds and falls through otherwise (R192 to R195). -/
def jumpWhen (taken : Bool) (s : State) (target : Byte) : State :=
  s.setPc (if taken then target else fallThrough s)

/-- JMP (R192). -/
def execJmp (a : Byte) (s : State) : Host.Outcome State Fault Refusal :=
  complete (.jmp a) s (withReg a fun ra => s.setPc (s.reg ra))

/-- JEQ (R193): the operand is checked on either path. -/
def execJeq (a : Byte) (s : State) : Host.Outcome State Fault Refusal :=
  complete (.jeq a) s (withReg a fun ra => jumpWhen s.flagE s (s.reg ra))

/-- JNE (R194): the operand is checked on either path. -/
def execJne (a : Byte) (s : State) : Host.Outcome State Fault Refusal :=
  complete (.jne a) s (withReg a fun ra => jumpWhen (!s.flagE) s (s.reg ra))

/-- JGT, unimplemented (R196). -/
def execJgt (a : Byte) (s : State) : Host.Outcome State Fault Refusal := unimplemented (.jgt a) s

/-- JGE, unimplemented (R197). -/
def execJge (a : Byte) (s : State) : Host.Outcome State Fault Refusal := unimplemented (.jge a) s

/-- JLT, unimplemented (R198). -/
def execJlt (a : Byte) (s : State) : Host.Outcome State Fault Refusal := unimplemented (.jlt a) s

/-- JLE, unimplemented (R199). -/
def execJle (a : Byte) (s : State) : Host.Outcome State Fault Refusal := unimplemented (.jle a) s

end Sys2Proof.Machine
end

