-- ==== Sys2Proof/Machine/Control.lean ====
section
/-! DEFINITION. No-op and halt (spec 46_nop_halt.md). -/

namespace Sys2Proof.Machine

/-- NOP (R205): only the advance. -/
def execNop (s : State) : Host.Outcome State Fault Refusal := complete .nop s (.ok s)

/-- HLT (R206): the run state is HALTED, and the step's own advance still happens (R162). -/
def execHlt (s : State) : Host.Outcome State Fault Refusal := complete .hlt s (.ok s.halt)

end Sys2Proof.Machine
end

