-- ==== Sys2Proof/Machine/Io.lean ====
section
/-! DEFINITION. Output and interrupt instructions (spec 45_io.md). -/

namespace Sys2Proof.Machine

/-- PRN (R201): a decimal-number event. -/
def execPrn (a : Byte) (s : State) : Host.Outcome State Fault Refusal :=
  complete (.prn a) s (withReg a fun ra => s.output .num (s.reg ra))

/-- PRA (R202): a character event. -/
def execPra (a : Byte) (s : State) : Host.Outcome State Fault Refusal :=
  complete (.pra a) s (withReg a fun ra => s.output .char (s.reg ra))

/-- INT, unimplemented (R203): no interrupt is raised and nothing is saved. -/
def execInt (a : Byte) (s : State) : Host.Outcome State Fault Refusal := unimplemented (.int a) s

/-- IRET, unimplemented (R204): nothing is popped or restored. -/
def execIret (s : State) : Host.Outcome State Fault Refusal := unimplemented .iret s

end Sys2Proof.Machine
end

