-- ==== Sys2Proof/Machine/LoadStore.lean ====
section
/-! DEFINITION. Immediate and memory instructions (spec 42_load_store.md). -/

namespace Sys2Proof.Machine

/-- LDI (R181): operand-B is never checked. -/
def execLdi (a b : Byte) (s : State) : Host.Outcome State Fault Refusal :=
  complete (.ldi a b) s (withReg a fun ra => s.setReg ra (immediate b))

/-- LD (R182): `x[B]` is read before `x[A]` is written (R231). -/
def execLd (a b : Byte) (s : State) : Host.Outcome State Fault Refusal :=
  complete (.ld a b) s (withReg2 a b fun ra rb => s.setReg ra (indirect s rb))

/-- ST, unimplemented (R183): no memory is written. -/
def execSt (a b : Byte) (s : State) : Host.Outcome State Fault Refusal := unimplemented (.st a b) s

end Sys2Proof.Machine
end

