-- ==== Sys2Proof/Machine/Stack.lean ====
section
/-! DEFINITION. Stack, call and return (spec 43_stack_call.md; the orders are R231's). -/

namespace Sys2Proof.Machine

/-- PUSH (R185): the source register is read after the decrement (D11). -/
def execPush (a : Byte) (s : State) : Host.Outcome State Fault Refusal :=
  complete (.push a) s (withReg a fun ra => s.openSlot.storeTop (s.openSlot.reg ra))

/-- POP (R186): the destination is written before SP, as it then stands, is incremented (D11). -/
def execPop (a : Byte) (s : State) : Host.Outcome State Fault Refusal :=
  complete (.pop a) s (withReg a fun ra => (s.setReg ra s.top).closeSlot)

/-- What CALL pushes: the address of the byte after its one operand (R152, R188). -/
def returnAddress (s : State) : Byte := s.pc + 2

/-- CALL (R188): the target register is read after the push (D10). -/
def execCall (a : Byte) (s : State) : Host.Outcome State Fault Refusal :=
  complete (.call a) s (withReg a fun ra =>
    let pushed := s.openSlot.storeTop (returnAddress s)
    pushed.setPc (pushed.reg ra))

/-- RET (R189). -/
def execRet (s : State) : Host.Outcome State Fault Refusal :=
  complete .ret s (.ok (s.setPc s.top).closeSlot)

end Sys2Proof.Machine
end

