-- ==== Sys2Proof/Machine/Step.lean ====
section
/-! DEFINITION. One step of the core (spec 40_cycle.md R164) and the placing of an instruction. -/

namespace Sys2Proof.Machine

/-- One step (R164). HALTED and FAULTED have none (R119). A RUNNING core fetches the window at pc; an
opcode byte with no table entry raises UnknownOpcode (R157, R209); any other is executed. -/
def step (s : State) : Host.Outcome State Fault Refusal :=
  match s.runState with
  | .halted => .fault .coreHalted
  | .faulted => .fault .coreFaulted
  | .running =>
    match decode (fetch s) with
    | .error (.unknownOpcode op) => .next (s.takeFault ⟨.unknownOpcode, op⟩)
    | .ok i => exec i s

/-- The state with an instruction placed where the next step fetches: the three bytes of the window
at pc, pc+1 and pc+2, modulo 256. Nothing else is changed (log 5). -/
def State.withFetchWord (s : State) (nbits w : Nat) : State :=
  { s with mem := s.mem.writeBytes s.pc (tableWindow nbits w).bytes }

end Sys2Proof.Machine
end

