-- ==== Sys2Proof/Machine/Loader.lean ====
section
/-! DEFINITION. The core's boundary with the host: the program file, the start and the end of a run
(spec 70_reset_and_hazards.md R225 to R227; 40_cycle.md R165). The scope file leaves the loader out
but for this boundary (00_scope.md R103). -/

namespace Sys2Proof.Machine

/-- Why a program file gives no image; all are the spec's load error (R212, R225, R226; log 9). -/
inductive LoadError where
  /-- A line left after stripping is not a base-2 literal (R225). -/
  | notBinary
  /-- A line's value exceeds 255 (R226). -/
  | valueTooLarge
  /-- The file gives more than 256 bytes (R226). -/
  | imageTooLarge
deriving DecidableEq, Repr

/-- The lines of a text (R225; the separator is the line feed, log 8). -/
def splitLines : List Char → List (List Char)
  | [] => [[]]
  | c :: rest =>
    match splitLines rest with
    | [] => [[c]]
    | line :: lines => if c = '\n' then [] :: line :: lines else (c :: line) :: lines

/-- A line up to its first `#` (R225). -/
def stripComment (line : List Char) : List Char := line.takeWhile (· ≠ '#')

/-- A line without surrounding white space (R225; log 8). -/
def trimLine (line : List Char) : List Char :=
  ((line.dropWhile (·.isWhitespace)).reverse.dropWhile (·.isWhitespace)).reverse

/-- The value of a base-2 literal read after `acc`: the digits 0 and 1, most significant first
(R105, R225; log 8). -/
def parseBinaryFrom : Nat → List Char → Option Nat
  | acc, [] => some acc
  | acc, '0' :: rest => parseBinaryFrom (2 * acc) rest
  | acc, '1' :: rest => parseBinaryFrom (2 * acc + 1) rest
  | _, _ :: _ => none

/-- The byte a line gives once stripped and trimmed; `none` for a line that is then empty (R225). -/
def parseLine (line : List Char) : Except LoadError (Option Byte) :=
  match trimLine (stripComment line) with
  | [] => .ok none
  | c :: rest =>
    match parseBinaryFrom 0 (c :: rest) with
    | none => .error .notBinary
    | some n => if n < 256 then .ok (some (BitVec.ofNat 8 n)) else .error .valueTooLarge

/-- The bytes of a program's lines, one per accepted line, in file order (R225). -/
def parseLines : List (List Char) → Except LoadError (List Byte)
  | [] => .ok []
  | line :: rest =>
    match parseLine line with
    | .error e => .error e
    | .ok byte =>
      match parseLines rest with
      | .error e => .error e
      | .ok bytes => .ok (byte.toList ++ bytes)

/-- The program image of a file's text: 0 to 256 bytes, or a load error (R225, R226). -/
def loadProgram (text : List Char) : Except LoadError (List Byte) :=
  match parseLines (splitLines text) with
  | .error e => .error e
  | .ok image => if image.length ≤ Config.memorySize then .ok image else .error .imageTooLarge

/-- The start state with a program image placed from address 0 (R124, R223, R225). -/
def State.boot (image : List Byte) : State :=
  { State.reset with mem := Memory.writeBytes [] Config.entryPoint image }

/-- What the host's start comes to (R227). -/
inductive Launch where
  /-- Not exactly one argument: the core is never built. -/
  | usageError
  /-- A malformed program file: no step runs (R212). -/
  | loadError (e : LoadError)
  /-- The core starts in this state. -/
  | started (s : State)
deriving DecidableEq, Repr

/-- The host's start on the texts of its program file arguments (R227). -/
def launch : List (List Char) → Launch
  | [text] =>
    match loadProgram text with
    | .error e => .loadError e
    | .ok image => .started (State.boot image)
  | _ => .usageError

/-- The exit status as far as the spec gives it: 0, or some other value (R227; U10; log 11). -/
inductive ExitStatus where
  | zero
  | nonZero
deriving DecidableEq, Repr

/-- How the host ends a run that is in this state: not at all while RUNNING, with 0 on HALTED, with
another value on FAULTED (R165, R227). -/
def State.exitStatus (s : State) : Option ExitStatus :=
  match s.runState with
  | .running => none
  | .halted => some .zero
  | .faulted => some .nonZero

/-- The exit status of a start that came to no run; `none` where the core started (R227). -/
def Launch.exitStatus : Launch → Option ExitStatus
  | .usageError => some .nonZero
  | .loadError _ => some .nonZero
  | .started _ => none

end Sys2Proof.Machine
end

