-- ==== Sys2Proof/Machine/Output.lean ====
section
/-! DEFINITION. How the host renders the output port (spec 45_io.md R200 to R202). -/

namespace Sys2Proof.Machine

/-- The character of a decimal digit. -/
def digitChar (d : Nat) : Char := Char.ofNat (48 + d)

/-- The decimal digits of a byte, no sign and no leading zeros: "0" to "255" (R200, R201). -/
def decimalText (v : Byte) : List Char :=
  let n := v.toNat
  if n < 10 then [digitChar n]
  else if n < 100 then [digitChar (n / 10), digitChar (n % 10)]
  else [digitChar (n / 100), digitChar (n / 10 % 10), digitChar (n % 10)]

/-- One event as text: a number's digits, or the one character whose code point is the value (R200).
The byte encoding of code points 128 to 255 on the host's stream is left out (U9; log 10). -/
def OutputEvent.text (e : OutputEvent) : List Char :=
  match e.kind with
  | .num => decimalText e.value
  | .char => [Char.ofNat e.value.toNat]

/-- The standard output text of a port: the events in order with nothing between them (R200). -/
def outputText : List OutputEvent → List Char
  | [] => []
  | e :: rest => e.text ++ outputText rest

end Sys2Proof.Machine
end

