-- ==== Sys2Proof/Safety.lean ====
section
/-! DEFINITION. What claims are stated in: the invariant of the core, the ends of a run
(spec 40_cycle.md R165) and the states a run reaches. -/

namespace Sys2Proof.Machine

/-- FL is one of its four values: 0, E, G or L (R191). -/
abbrev FlagsLegal (fl : Byte) : Prop :=
  fl = 0 ∨ fl = flagsEqual ∨ fl = flagsGreater ∨ fl = flagsLess

/-- The fault record tells a fault that the bytes at pc really raise (R209, R210, R211): the opcode
byte is unknown, or it is unimplemented, or it decodes to an instruction with an illegal register
byte, which is the one recorded. -/
def FaultRecord.tells (f : FaultRecord) (s : State) : Prop :=
  f.pc = s.pc ∧
  match f.kind with
  | .unknownOpcode => f.byte = (fetch s).op ∧ opcodeStatus f.byte = .unknown
  | .unimplementedOpcode => f.byte = (fetch s).op ∧ opcodeStatus f.byte = .unimplemented
  | .illegalRegister =>
    8 ≤ f.byte.toNat ∧ ∃ i, decode (fetch s) = .ok i ∧ f.byte ∈ i.registerOperands

/-- The run state is FAULTED exactly when there is a fault record, and the record tells the fault
precisely (R118, R163, R208). -/
def FaultConsistent (s : State) : Prop :=
  (s.runState = .faulted ↔ s.fault.isSome) ∧ ∀ f, s.fault = some f → f.tells s

/-- The invariant of the core: memory in its canonical form, FL legal, the fault record consistent. -/
structure Inv (s : State) : Prop where
  /-- Memory keeps its canonical form. -/
  memory : s.mem.wf = true
  /-- FL holds one of its four values (R191). -/
  flags : FlagsLegal s.fl
  /-- The fault record agrees with the run state, pc and the bytes there. -/
  faults : FaultConsistent s

/-- `n` steps from `s` lead to `t`. -/
def Reaches (n : Nat) (s t : State) : Prop := Sys2Proof.core.run n s = .next t

/-- A normal end: the run reaches HALTED (R165). -/
def EndsNormally (s : State) : Prop := ∃ n t, Reaches n s t ∧ t.runState = .halted

/-- An abnormal end: the run reaches FAULTED (R165). -/
def EndsAbnormally (s : State) : Prop := ∃ n t, Reaches n s t ∧ t.runState = .faulted

end Sys2Proof.Machine
end

