-- ==== Sys2Proof/Certificates/Slice0/Obligations.lean ====
section
/-! DEFINITION. The statements about the model, one definition each; their texts and grounds are in
OBLIGATIONS.json. The vocabulary they share stands first. -/

namespace Sys2Proof.Claims

open Sys2Proof Sys2Proof.Machine

/-- Everything but pc and the registers listed is as before; memory byte by byte. -/
def OnlyRegisters (rs : List Reg) (s t : State) : Prop :=
  (∀ q, q ∉ rs → t.reg q = s.reg q) ∧ t.fl = s.fl ∧ (∀ x, t.load x = s.load x) ∧
    t.runState = s.runState ∧ t.fault = s.fault ∧ t.out = s.out

/-- Everything but pc, SP and the byte at the address a push stores to is as before. -/
def OnlyPush (s t : State) : Prop :=
  (∀ q, q ≠ Config.stackPointer → t.reg q = s.reg q) ∧ t.fl = s.fl ∧
    (∀ x, x ≠ s.pushAddress → t.load x = s.load x) ∧
    t.runState = s.runState ∧ t.fault = s.fault ∧ t.out = s.out

/-- The step from `s` raised a fault of kind `k` recording the byte `b`: `t` is FAULTED with the
record, whose pc is that of `s`, and everything else is as it was in `s` (R163, R208). -/
def FaultTaken (s : State) (k : FaultKind) (b : Byte) (t : State) : Prop :=
  t.runState = .faulted ∧ t.fault = some ⟨k, s.pc, b⟩ ∧ t.pc = s.pc ∧
    (∀ q, t.reg q = s.reg q) ∧ t.fl = s.fl ∧ (∀ x, t.load x = s.load x) ∧ t.out = s.out

/-- The instruction raises that fault. -/
def Raises (i : Instr) (s : State) (k : FaultKind) (b : Byte) : Prop :=
  ∃ t, exec i s = .next t ∧ FaultTaken s k b t

/-- pc is `n` further on, modulo 256. -/
def PcMoved (n : Nat) (s t : State) : Prop := t.pc.toNat = (s.pc.toNat + n) % 256

/-- A one-byte instruction is encoded by its opcode byte; the other two bytes fetched are ignored. -/
def Encoded1 (op : Byte) (i : Instr) : Prop :=
  encode i = [op] ∧ ∀ x y, decode ⟨op, x, y⟩ = .ok i

/-- A two-byte instruction is encoded by its opcode byte and operand-A; the third byte is ignored. -/
def Encoded2 (op : Byte) (i : Byte → Instr) : Prop :=
  ∀ a, encode (i a) = [op, a] ∧ ∀ y, decode ⟨op, a, y⟩ = .ok (i a)

/-- A three-byte instruction is encoded by its opcode byte and both operands. -/
def Encoded3 (op : Byte) (i : Byte → Byte → Instr) : Prop :=
  ∀ a b, encode (i a b) = [op, a, b] ∧ decode ⟨op, a, b⟩ = .ok (i a b)

/-- A one-operand instruction checks its register byte. -/
def ChecksA (i : Byte → Instr) : Prop :=
  ∀ s a, 8 ≤ a.toNat → Raises (i a) s .illegalRegister a

/-- A two-operand instruction checks both register bytes, operand-A first. -/
def ChecksAB (i : Byte → Byte → Instr) : Prop :=
  ∀ s a b, (8 ≤ a.toNat → Raises (i a b) s .illegalRegister a) ∧
    (a.toNat < 8 → 8 ≤ b.toNat → Raises (i a b) s .illegalRegister b)

/-- The declared, unimplemented opcode always raises UnimplementedOpcode recording its opcode byte. -/
def AlwaysUnimplemented (op : Byte) (i : Instr) : Prop :=
  ∀ s, Raises i s .unimplementedOpcode op

/-- The registers an instruction may write: operand-A's by the instructions R113 lists, and SP by
the stack instructions. -/
def mayWrite (i : Instr) (q : Reg) : Prop :=
  match i with
  | .ldi a _ | .ld a _ | .add a _ | .mul a _ => a = registerByte q
  | .inc a | .dec a => a = registerByte q
  | .pop a => a = registerByte q ∨ q = Config.stackPointer
  | .push _ | .call _ | .ret => q = Config.stackPointer
  | .nop | .hlt | .iret => False
  | .prn _ | .pra _ | .int _ | .jmp _ | .jeq _ | .jne _ | .jgt _ | .jlt _ | .jle _ | .jge _ => False
  | .not _ | .st _ _ | .sub _ _ | .div _ _ | .mod _ _ | .cmp _ _ | .and _ _ | .or _ _ => False
  | .xor _ _ | .shl _ _ | .shr _ _ => False

/-- The instruction stores to memory. -/
def storesToMemory : Instr → Prop
  | .push _ | .call _ => True
  | _ => False

/-- The instruction compares. -/
def isCompare : Instr → Prop
  | .cmp _ _ => True
  | _ => False

/-- The event an instruction appends to the port when it completes in `s`. -/
def printed (s : State) : Instr → List OutputEvent
  | .prn a => [⟨.num, s.reg (registerBits a)⟩]
  | .pra a => [⟨.char, s.reg (registerBits a)⟩]
  | _ => []

/-- If the address `x` lies in the window at pc, the fetch reads the byte `v` there. -/
def NextFetchSees (x v : Byte) (t : State) : Prop :=
  (t.pc = x → (fetch t).op = v) ∧ (t.pc + 1 = x → (fetch t).a = v) ∧
    (t.pc + 2 = x → (fetch t).b = v)

/-- The two states differ at most in bits of FL other than E. -/
def AgreeButGreaterLess (s s' : State) : Prop :=
  s' = { s with fl := s'.fl } ∧ s'.flagE = s.flagE

/-- The eight digits of a byte, most significant first, as the program file writes it (R105, R154). -/
def binaryDigits (v : Byte) : List Char :=
  [7, 6, 5, 4, 3, 2, 1, 0].map fun k => if v.getLsbD k then '1' else '0'

/-- A program file: one line for each byte, with a comment. -/
def programText : List (Byte × List Char) → List Char
  | [] => []
  | (v, comment) :: rest => binaryDigits v ++ ' ' :: '#' :: comment ++ '\n' :: programText rest

/-- The rows of R146's table: opcode, operand count, is_alu, sets_pc, status. -/
def opcodeMap : List (Byte × Nat × Bool × Bool × OpcodeStatus) :=
  [(0x00, 0, false, false, .implemented), (0x01, 0, false, false, .implemented),
   (0x11, 0, false, true, .implemented), (0x13, 0, false, true, .unimplemented),
   (0x45, 1, false, false, .implemented), (0x46, 1, false, false, .implemented),
   (0x47, 1, false, false, .implemented), (0x48, 1, false, false, .implemented),
   (0x50, 1, false, true, .implemented), (0x52, 1, false, true, .unimplemented),
   (0x54, 1, false, true, .implemented), (0x55, 1, false, true, .implemented),
   (0x56, 1, false, true, .implemented), (0x57, 1, false, true, .unimplemented),
   (0x58, 1, false, true, .unimplemented), (0x59, 1, false, true, .unimplemented),
   (0x5A, 1, false, true, .unimplemented), (0x65, 1, true, false, .implemented),
   (0x66, 1, true, false, .implemented), (0x69, 1, true, false, .unimplemented)] ++
  [(0x82, 2, false, false, .implemented), (0x83, 2, false, false, .implemented),
   (0x84, 2, false, false, .unimplemented), (0xA0, 2, true, false, .implemented),
   (0xA1, 2, true, false, .unimplemented), (0xA2, 2, true, false, .implemented),
   (0xA3, 2, true, false, .unimplemented), (0xA4, 2, true, false, .unimplemented),
   (0xA7, 2, true, false, .implemented), (0xA8, 2, true, false, .unimplemented),
   (0xAA, 2, true, false, .unimplemented), (0xAB, 2, true, false, .unimplemented),
   (0xAC, 2, true, false, .unimplemented), (0xAD, 2, true, false, .unimplemented)]

/-- How many of the 256 opcode bytes have a status. -/
def opcodesWith (st : OpcodeStatus) : Nat :=
  ((List.range 256).filter fun n => opcodeStatus (BitVec.ofNat 8 n) == st).length

end Sys2Proof.Claims

open Sys2Proof Sys2Proof.Machine Sys2Proof.Claims

/-! ### The start of a run and the invariant -/

/-- 10_state.md section 8 (its 0 in R0 to R6 and above the image are the spec's decisions D8 and D7). -/
def Obligations.StartStateHoldsTheImage : Prop :=
  ∀ image : List Byte, image.length ≤ 256 →
    (∀ q, (State.boot image).reg q = 0) ∧ (State.boot image).pc = 0 ∧ (State.boot image).fl = 0 ∧
    (∀ x : Byte, (State.boot image).load x = image.getD x.toNat 0) ∧
    (State.boot image).runState = .running ∧ (State.boot image).fault = none ∧
    (State.boot image).out = [] ∧ State.reset = State.boot []

/-- The invariant is the model's own reading of R116, R163, R191 and R208. -/
def Obligations.ResetSatisfiesTheInvariant : Prop := Inv State.reset

/-- Every start state, whatever its image, satisfies the invariant. -/
def Obligations.EveryStartStateSatisfiesTheInvariant : Prop :=
  ∀ image : List Byte, Inv (State.boot image)

/-- Every step keeps the invariant, from every state that has it. -/
def Obligations.EveryStepKeepsTheInvariant : Prop :=
  ∀ s t : State, Inv s → step s = .next t → Inv t

/-- Every run keeps the invariant. -/
def Obligations.EveryRunKeepsTheInvariant : Prop :=
  ∀ (n : Nat) (s t : State), Inv s → Reaches n s t → Inv t

/-- Two memories in canonical form that read alike everywhere are the same list. -/
def Obligations.CanonicalMemoriesThatReadAlikeAreEqual : Prop :=
  ∀ m m' : Memory, m.wf = true → m'.wf = true → (∀ x, m.readByte x = m'.readByte x) → m = m'

/-! ### Encoding -/

/-- Decoding the encoding of an instruction gives it back, whatever bytes follow it. -/
def Obligations.DecodingAnEncodingGivesTheInstruction : Prop :=
  ∀ (i : Instr) (rest : List Byte), decode (windowOf (encode i ++ rest)) = .ok i

/-- Encoding a decoded instruction gives back the bytes of its length. -/
def Obligations.EncodingADecodedWindowGivesItsBytes : Prop :=
  ∀ (w : Window) (i : Instr), decode w = .ok i → encode i = w.bytes.take (instrLength w.op)

/-- R145. -/
def Obligations.UnusedOperandBytesAreIgnored : Prop :=
  ∀ w w' : Window, w.op = w'.op → (1 ≤ operandCount w.op → w.a = w'.a) →
    (2 ≤ operandCount w.op → w.b = w'.b) → decode w = decode w'

/-- R146's table (its opcode values are the spec's supplied values, D14; log 1). -/
def Obligations.FormatFieldsAgreeWithTheOpcodeMap : Prop :=
  dispatchTable.length = 34 ∧
    ∀ row ∈ opcodeMap, operandCount row.1 = row.2.1 ∧ isAlu row.1 = row.2.2.1 ∧
      setsPc row.1 = row.2.2.2.1 ∧ opcodeStatus row.1 = row.2.2.2.2

/-- R150. -/
def Obligations.OpcodeBytesAreOfThreeKinds : Prop :=
  opcodesWith .implemented = 18 ∧ opcodesWith .unimplemented = 16 ∧ opcodesWith .unknown = 222

/-- Words of 95_test_vectors.md. -/
def Obligations.WordsOfTheSpecDecode : Prop :=
  decodeTableWord 24 0x080082 = some (.ldi 0 8) ∧ decodeTableWord 24 0x010283 = some (.ld 2 1) ∧
    decodeTableWord 24 0x0100A2 = some (.mul 0 1) ∧ decodeTableWord 16 0x0366 = some (.dec 3) ∧
    decodeTableWord 16 0x0150 = some (.call 1) ∧ decodeTableWord 8 0x11 = some .ret ∧
    decodeTableWord 8 0x02 = none ∧ decodeTableWord 24 0x0100A5 = none

/-! ### The step -/

/-- R155, R159, R164. -/
def Obligations.StepRunsTheDecodedInstruction : Prop :=
  ∀ (s : State) (i : Instr), s.runState = .running → decode (fetch s) = .ok i →
    (fetch s).op = s.load s.pc ∧
    (∀ x : Byte, x.toNat = (s.pc.toNat + 1) % 256 → (fetch s).a = s.load x) ∧
    (∀ x : Byte, x.toNat = (s.pc.toNat + 2) % 256 → (fetch s).b = s.load x) ∧
    step s = exec i s

/-- R157, R209. -/
def Obligations.UnknownOpcodeRaisesItsFault : Prop :=
  ∀ s : State, s.runState = .running → dispatchEntry (s.load s.pc) = none →
    ∃ t, step s = .next t ∧ FaultTaken s .unknownOpcode (s.load s.pc) t

/-- R214. -/
def Obligations.FaultsComeInTheOrderOfTheSpec : Prop :=
  ∀ s : State, s.runState = .running → ∃ t, step s = .next t ∧
    (opcodeStatus (fetch s).op = .unknown → FaultTaken s .unknownOpcode (fetch s).op t) ∧
    (opcodeStatus (fetch s).op = .unimplemented → FaultTaken s .unimplementedOpcode (fetch s).op t) ∧
    (∀ i, decode (fetch s) = .ok i → opcodeStatus (fetch s).op = .implemented →
      (∀ r, i.registerOperands.find? (fun x => decide (8 ≤ x.toNat)) = some r →
        FaultTaken s .illegalRegister r t) ∧
      ((∀ r ∈ i.registerOperands, r.toNat < 8) → t.runState ≠ .faulted ∧ t.fault = s.fault))

/-- 60_exceptions.md R208's table of codes (the numbering is the spec's own decision D6; log 7): the
record of a fault a step takes has the code of what raised it. -/
def Obligations.FaultRecordHoldsTheCodeOfItsCause : Prop :=
  ∀ s t : State, s.runState = .running → step s = .next t → t.runState = .faulted →
    (opcodeStatus (s.load s.pc) = .unknown → t.fault.map FaultRecord.code = some 1) ∧
    (opcodeStatus (s.load s.pc) = .unimplemented → t.fault.map FaultRecord.code = some 2) ∧
    (opcodeStatus (s.load s.pc) = .implemented → t.fault.map FaultRecord.code = some 3)

/-- R163. -/
def Obligations.FaultsArePrecise : Prop :=
  ∀ s t : State, s.runState = .running → step s = .next t → t.runState = .faulted →
    ∃ k b, FaultTaken s k b t

/-- R166. -/
def Obligations.RunningCoreTakesItsNextStep : Prop :=
  ∀ s : State, (∃ t, step s = .next t) ↔ s.runState = .running

/-- R207, R216. -/
def Obligations.StoppedCoreHasNoStep : Prop :=
  ∀ s : State, (s.runState = .halted → step s = .fault .coreHalted) ∧
    (s.runState = .faulted → step s = .fault .coreFaulted)

/-- R119. -/
def Obligations.OnlyHltHalts : Prop :=
  ∀ s t : State, s.runState = .running → step s = .next t →
    (t.runState = .halted ↔ s.load s.pc = 0x01)

/-- R165. -/
def Obligations.RunEndsInAtMostOneWay : Prop :=
  ∀ s : State, ¬(EndsNormally s ∧ EndsAbnormally s)

/-! ### What no instruction, or only a named one, changes -/

/-- R117, R191. -/
def Obligations.OnlyCompareWritesTheFlags : Prop :=
  ∀ (i : Instr) (s t : State), exec i s = .next t → ¬isCompare i → t.fl = s.fl

/-- 20_memory.md R127's table of writes. -/
def Obligations.OnlyPushAndCallWriteMemory : Prop :=
  ∀ (i : Instr) (s t : State), exec i s = .next t →
    (¬storesToMemory i → ∀ x, t.load x = s.load x) ∧
    (storesToMemory i → ∀ x, x ≠ s.pushAddress → t.load x = s.load x)

/-- 10_state.md R113's list of writes. -/
def Obligations.RegistersWrittenAreTheListedOnes : Prop :=
  ∀ (i : Instr) (s t : State), exec i s = .next t → ∀ q, ¬mayWrite i q → t.reg q = s.reg q

/-- R118: only HLT and a fault write the run state, and only a fault the record. -/
def Obligations.OnlyHltAndFaultsWriteTheRunState : Prop :=
  ∀ (i : Instr) (s t : State), exec i s = .next t →
    (i = .hlt ∧ t.runState = .halted ∧ t.fault = s.fault) ∨
    (i ≠ .hlt ∧ t.runState = s.runState ∧ t.fault = s.fault) ∨
    (i ≠ .hlt ∧ ∃ k b, FaultTaken s k b t)

/-- R122, R200. -/
def Obligations.OnlyPrintsAppendToThePort : Prop :=
  ∀ (i : Instr) (s t : State), exec i s = .next t →
    t.out = s.out ++ printed s i ∨ (∃ k b, FaultTaken s k b t)

/-- R161. -/
def Obligations.DefaultAdvanceIsTheLength : Prop :=
  ∀ (i : Instr) (s t : State), exec i s = .next t → setsPc i.opcode = false →
    PcMoved (1 + operandCount i.opcode) s t ∨ (∃ k b, FaultTaken s k b t)

/-- R117: E alone is read, so G and L never matter to a run. -/
def Obligations.GreaterAndLessNeverMatterToARun : Prop :=
  ∀ (n : Nat) (s s' t : State), AgreeButGreaterLess s s' → Reaches n s t →
    ∃ t', Reaches n s' t' ∧ AgreeButGreaterLess t t'

/-- R122: the port is never read. -/
def Obligations.ThePortIsNeverRead : Prop :=
  ∀ (s t : State) (o : List OutputEvent), step s = .next t →
    ∃ es, t.out = s.out ++ es ∧ step { s with out := o } = .next { t with out := o ++ es }

/-! ### ALU -/

/-- R167 (opcode value D14, operand check D4). -/
def Obligations.AddIsTheSumModulo256 : Prop :=
  Encoded3 0b10100000 .add ∧ ChecksAB .add ∧
  ∀ (s : State) (ra rb : Reg), ∃ t, exec (.add (registerByte ra) (registerByte rb)) s = .next t ∧
    (t.reg ra).toNat = ((s.reg ra).toNat + (s.reg rb).toNat) % 256 ∧
    PcMoved 3 s t ∧ OnlyRegisters [ra] s t

/-- R168 (opcode value D14, operand check D4). -/
def Obligations.MulIsTheProductModulo256 : Prop :=
  Encoded3 0b10100010 .mul ∧ ChecksAB .mul ∧
  ∀ (s : State) (ra rb : Reg), ∃ t, exec (.mul (registerByte ra) (registerByte rb)) s = .next t ∧
    (t.reg ra).toNat = ((s.reg ra).toNat * (s.reg rb).toNat) % 256 ∧
    PcMoved 3 s t ∧ OnlyRegisters [ra] s t

/-- R169 (opcode value D14, operand check D4). -/
def Obligations.IncAddsOneModulo256 : Prop :=
  Encoded2 0b01100101 .inc ∧ ChecksA .inc ∧
  ∀ (s : State) (ra : Reg), ∃ t, exec (.inc (registerByte ra)) s = .next t ∧
    (t.reg ra).toNat = ((s.reg ra).toNat + 1) % 256 ∧ PcMoved 2 s t ∧ OnlyRegisters [ra] s t

/-- R170 (opcode value D14, operand check D4). -/
def Obligations.DecSubtractsOneModulo256 : Prop :=
  Encoded2 0b01100110 .dec ∧ ChecksA .dec ∧
  ∀ (s : State) (ra : Reg), ∃ t, exec (.dec (registerByte ra)) s = .next t ∧
    ((t.reg ra).toNat : Int) = ((s.reg ra).toNat - 1 : Int) % 256 ∧
    PcMoved 2 s t ∧ OnlyRegisters [ra] s t

/-- R171 to R179 (opcode values D14). -/
def Obligations.UnimplementedAluOpcodesFault : Prop :=
  Encoded3 0b10100001 .sub ∧ (∀ a b, AlwaysUnimplemented 0b10100001 (.sub a b)) ∧
  Encoded3 0b10100011 .div ∧ (∀ a b, AlwaysUnimplemented 0b10100011 (.div a b)) ∧
  Encoded3 0b10100100 .mod ∧ (∀ a b, AlwaysUnimplemented 0b10100100 (.mod a b)) ∧
  Encoded3 0b10101000 .and ∧ (∀ a b, AlwaysUnimplemented 0b10101000 (.and a b)) ∧
  Encoded3 0b10101010 .or ∧ (∀ a b, AlwaysUnimplemented 0b10101010 (.or a b)) ∧
  Encoded3 0b10101011 .xor ∧ (∀ a b, AlwaysUnimplemented 0b10101011 (.xor a b)) ∧
  Encoded2 0b01101001 .not ∧ (∀ a, AlwaysUnimplemented 0b01101001 (.not a)) ∧
  Encoded3 0b10101100 .shl ∧ (∀ a b, AlwaysUnimplemented 0b10101100 (.shl a b)) ∧
  Encoded3 0b10101101 .shr ∧ (∀ a b, AlwaysUnimplemented 0b10101101 (.shr a b))

/-- R183, R196 to R199, R203, R204 (opcode values D14). -/
def Obligations.UnimplementedOtherOpcodesFault : Prop :=
  Encoded3 0b10000100 .st ∧ (∀ a b, AlwaysUnimplemented 0b10000100 (.st a b)) ∧
  Encoded2 0b01010111 .jgt ∧ (∀ a, AlwaysUnimplemented 0b01010111 (.jgt a)) ∧
  Encoded2 0b01011010 .jge ∧ (∀ a, AlwaysUnimplemented 0b01011010 (.jge a)) ∧
  Encoded2 0b01011000 .jlt ∧ (∀ a, AlwaysUnimplemented 0b01011000 (.jlt a)) ∧
  Encoded2 0b01011001 .jle ∧ (∀ a, AlwaysUnimplemented 0b01011001 (.jle a)) ∧
  Encoded2 0b01010010 .int ∧ (∀ a, AlwaysUnimplemented 0b01010010 (.int a)) ∧
  Encoded1 0b00010011 .iret ∧ AlwaysUnimplemented 0b00010011 .iret

/-! ### Immediate and memory -/

/-- R181 (opcode value D14, operand check D4). -/
def Obligations.LdiWritesTheImmediate : Prop :=
  Encoded3 0b10000010 .ldi ∧
  (∀ s a b, 8 ≤ a.toNat → Raises (.ldi a b) s .illegalRegister a) ∧
  ∀ (s : State) (ra : Reg) (b : Byte), ∃ t, exec (.ldi (registerByte ra) b) s = .next t ∧
    t.reg ra = b ∧ PcMoved 3 s t ∧ OnlyRegisters [ra] s t

/-- R182 (opcode value D14, operand check D4). -/
def Obligations.LdLoadsTheByteAtTheAddress : Prop :=
  Encoded3 0b10000011 .ld ∧ ChecksAB .ld ∧
  ∀ (s : State) (ra rb : Reg), ∃ t, exec (.ld (registerByte ra) (registerByte rb)) s = .next t ∧
    t.reg ra = s.load (s.reg rb) ∧ PcMoved 3 s t ∧ OnlyRegisters [ra] s t

/-! ### Stack, call and return -/

/-- 43_stack_call.md section PUSH; for R7 the order is the spec's decision D11. -/
def Obligations.PushStoresBelowTheStackPointer : Prop :=
  Encoded2 0b01000101 .push ∧ ChecksA .push ∧
  ∀ (s : State) (ra : Reg), ∃ t, exec (.push (registerByte ra)) s = .next t ∧
    s.pushAddress.toNat = (s.sp.toNat + 255) % 256 ∧ t.sp = s.pushAddress ∧
    t.load s.pushAddress = (if ra = 7 then s.pushAddress else s.reg ra) ∧
    PcMoved 2 s t ∧ OnlyPush s t

/-- 43_stack_call.md section POP; for R7 the order is the spec's decision D11. -/
def Obligations.PopLoadsAndRaisesTheStackPointer : Prop :=
  Encoded2 0b01000110 .pop ∧ ChecksA .pop ∧
  ∀ (s : State) (ra : Reg), ∃ t, exec (.pop (registerByte ra)) s = .next t ∧
    (ra ≠ 7 → t.reg ra = s.load s.sp ∧ t.sp.toNat = (s.sp.toNat + 1) % 256) ∧
    (ra = 7 → t.sp.toNat = ((s.load s.sp).toNat + 1) % 256) ∧
    PcMoved 2 s t ∧ OnlyRegisters [ra, 7] s t

/-- 43_stack_call.md, the push-pop round trip: R187 for registers other than R7 (its restriction is
C5); the clauses with R7, two R7s among them, follow from the spec's decision D11 (log 12). -/
def Obligations.PushThenPopRoundTrip : Prop :=
  ∀ (s : State) (r r' : Reg), ∃ t u, exec (.push (registerByte r)) s = .next t ∧
    exec (.pop (registerByte r')) t = .next u ∧
    (r ≠ 7 → r' ≠ 7 → u.reg r' = s.reg r ∧ u.sp = s.sp) ∧
    (r = 7 → r' ≠ 7 → u.reg r' = s.sp - 1) ∧
    (r ≠ 7 → r' = 7 → u.sp = s.reg r + 1) ∧
    (r = 7 → r' = 7 → u.sp = (s.sp - 1) + 1)

/-- 43_stack_call.md section CALL; for R7 the order is the spec's decision D10. -/
def Obligations.CallPushesTheReturnAddressAndJumps : Prop :=
  Encoded2 0b01010000 .call ∧ ChecksA .call ∧
  ∀ (s : State) (ra : Reg), ∃ t, exec (.call (registerByte ra)) s = .next t ∧
    s.pushAddress.toNat = (s.sp.toNat + 255) % 256 ∧ t.sp = s.pushAddress ∧
    (t.load s.pushAddress).toNat = (s.pc.toNat + 2) % 256 ∧
    t.pc = (if ra = 7 then s.pushAddress else s.reg ra) ∧ OnlyPush s t

/-- R189, with its round trip (opcode value D14). -/
def Obligations.RetPopsTheStackIntoPc : Prop :=
  Encoded1 0b00010001 .ret ∧
  (∀ s : State, ∃ t, exec .ret s = .next t ∧ t.pc = s.load s.sp ∧
    t.sp.toNat = (s.sp.toNat + 1) % 256 ∧ OnlyRegisters [7] s t) ∧
  ∀ (s : State) (ra : Reg), ra ≠ 7 → ∃ t, exec (.call (registerByte ra)) s = .next t ∧
    t.pc = s.reg ra ∧
    ∀ u : State, u.sp = t.sp → u.load t.sp = t.load t.sp →
      ∃ v, exec .ret u = .next v ∧ PcMoved 2 s v ∧ v.sp = s.sp

/-- 20_memory.md section 6: the very next fetch sees the byte PUSH or CALL has just written. -/
def Obligations.StackWritesAreSeenByTheNextFetch : Prop :=
  ∀ (s t : State) (ra : Reg),
    (exec (.push (registerByte ra)) s = .next t →
      NextFetchSees s.pushAddress (if ra = 7 then s.pushAddress else s.reg ra) t) ∧
    (exec (.call (registerByte ra)) s = .next t → NextFetchSees s.pushAddress (s.pc + 2) t)

/-! ### Comparison and jumps -/

/-- 44_compare_branch.md section 1; that G means `x[A] > x[B]` is the spec's decision D9. -/
def Obligations.CmpSetsExactlyOneFlag : Prop :=
  Encoded3 0b10100111 .cmp ∧ ChecksAB .cmp ∧
  ∀ (s : State) (ra rb : Reg), ∃ t, exec (.cmp (registerByte ra) (registerByte rb)) s = .next t ∧
    ((s.reg ra).toNat = (s.reg rb).toNat → t.fl = 0b001) ∧
    ((s.reg ra).toNat > (s.reg rb).toNat → t.fl = 0b010) ∧
    ((s.reg ra).toNat < (s.reg rb).toNat → t.fl = 0b100) ∧
    PcMoved 3 s t ∧ (∀ q, t.reg q = s.reg q) ∧ (∀ x, t.load x = s.load x) ∧
    t.runState = s.runState ∧ t.fault = s.fault ∧ t.out = s.out

/-- R192 (opcode value D14, operand check D4). -/
def Obligations.JmpGoesToTheRegister : Prop :=
  Encoded2 0b01010100 .jmp ∧ ChecksA .jmp ∧
  ∀ (s : State) (ra : Reg), ∃ t, exec (.jmp (registerByte ra)) s = .next t ∧
    t.pc = s.reg ra ∧ OnlyRegisters [] s t

/-- R193 (opcode value D14, operand check D4). -/
def Obligations.JeqJumpsWhenEqualIsSet : Prop :=
  Encoded2 0b01010101 .jeq ∧ ChecksA .jeq ∧
  ∀ (s : State) (ra : Reg), ∃ t, exec (.jeq (registerByte ra)) s = .next t ∧
    (s.fl.getLsbD 0 = true → t.pc = s.reg ra) ∧ (s.fl.getLsbD 0 = false → PcMoved 2 s t) ∧
    OnlyRegisters [] s t

/-- R194 (opcode value D14, operand check D4). -/
def Obligations.JneJumpsWhenEqualIsClear : Prop :=
  Encoded2 0b01010110 .jne ∧ ChecksA .jne ∧
  ∀ (s : State) (ra : Reg), ∃ t, exec (.jne (registerByte ra)) s = .next t ∧
    (s.fl.getLsbD 0 = false → t.pc = s.reg ra) ∧ (s.fl.getLsbD 0 = true → PcMoved 2 s t) ∧
    OnlyRegisters [] s t

/-! ### Output, no-op, halt -/

/-- R201 (opcode value D14, operand check D4), with the rendering of the event. -/
def Obligations.PrnAppendsANumber : Prop :=
  Encoded2 0b01000111 .prn ∧ ChecksA .prn ∧
  ∀ (s : State) (ra : Reg), ∃ t, exec (.prn (registerByte ra)) s = .next t ∧
    t.out = s.out ++ [⟨.num, s.reg ra⟩] ∧ outputText t.out = outputText s.out ++ decimalText (s.reg ra) ∧
    PcMoved 2 s t ∧ (∀ q, t.reg q = s.reg q) ∧ t.fl = s.fl ∧ (∀ x, t.load x = s.load x) ∧
    t.runState = s.runState ∧ t.fault = s.fault

/-- R202 (opcode value D14, operand check D4), with the rendering of the event. -/
def Obligations.PraAppendsACharacter : Prop :=
  Encoded2 0b01001000 .pra ∧ ChecksA .pra ∧
  ∀ (s : State) (ra : Reg), ∃ t, exec (.pra (registerByte ra)) s = .next t ∧
    t.out = s.out ++ [⟨.char, s.reg ra⟩] ∧
    outputText t.out = outputText s.out ++ [Char.ofNat (s.reg ra).toNat] ∧
    PcMoved 2 s t ∧ (∀ q, t.reg q = s.reg q) ∧ t.fl = s.fl ∧ (∀ x, t.load x = s.load x) ∧
    t.runState = s.runState ∧ t.fault = s.fault

/-- R200: decimal digits, no leading zero, one to three of them. -/
def Obligations.NumberTextIsDecimal : Prop :=
  ∀ v : Byte, (decimalText v).foldl (fun n c => 10 * n + (c.toNat - 48)) 0 = v.toNat ∧
    (∀ c ∈ decimalText v, 48 ≤ c.toNat ∧ c.toNat ≤ 57) ∧
    1 ≤ (decimalText v).length ∧ (decimalText v).length ≤ 3 ∧
    ((decimalText v).head? = some '0' → v = 0 ∧ decimalText v = ['0'])

/-- R205 (opcode value D14). -/
def Obligations.NopOnlyAdvances : Prop :=
  Encoded1 0b00000000 .nop ∧
  ∀ s : State, ∃ t, exec .nop s = .next t ∧ PcMoved 1 s t ∧ OnlyRegisters [] s t

/-- R206 (opcode value D14). -/
def Obligations.HltHaltsAndAdvances : Prop :=
  Encoded1 0b00000001 .hlt ∧
  ∀ s : State, ∃ t, exec .hlt s = .next t ∧ t.runState = .halted ∧
    step t = .fault .coreHalted ∧ t.exitStatus = some .zero ∧ PcMoved 1 s t ∧
    (∀ q, t.reg q = s.reg q) ∧ t.fl = s.fl ∧ (∀ x, t.load x = s.load x) ∧ t.fault = s.fault ∧
    t.out = s.out

/-! ### The boundary with the host -/

/-- 70_reset_and_hazards.md section 2, with the text conventions of log 8. -/
def Obligations.ProgramFileLoadsItsBytes : Prop :=
  ∀ lines : List (Byte × List Char), (∀ l ∈ lines, '\n' ∉ l.2) →
    (lines.length ≤ 256 → loadProgram (programText lines) = .ok (lines.map (·.1))) ∧
    (256 < lines.length → loadProgram (programText lines) = .error .imageTooLarge)

/-- 40_cycle.md R165 and 70_reset_and_hazards.md R227: the three ends of a run (values U10; log 11). -/
def Obligations.ExitStatusFollowsTheRunState : Prop :=
  ∀ s : State, (s.runState = .running → s.exitStatus = none) ∧
    (s.runState = .halted → s.exitStatus = some .zero) ∧
    (s.runState = .faulted → s.exitStatus = some .nonZero)
end

