-- ==== Sys2Proof/Laws/Memory.lean ====
section
/-! SUPPORT. The laws of memory: a read after a write, and the canonical form kept by every memory
operation (spec 20_memory.md R126). -/

namespace Sys2Proof.Machine.Memory

theorem findCell_eraseCell (m : Memory) (k j : Nat) :
    (m.eraseCell k).findCell j = if j = k then Config.unlistedByte else m.findCell j := by
  induction m with
  | nil => simp [eraseCell, findCell]
  | cons c rest ih =>
    obtain ⟨k', v⟩ := c
    simp only [eraseCell, findCell]
    split <;> rename_i hk
    · rw [ih]; split <;> simp_all [eq_comm]
    · simp only [findCell, ih]; split <;> split <;> simp_all

theorem findCell_insertCell (m : Memory) (k j : Nat) (v : Byte) (h : m.findCell k = Config.unlistedByte)
    (hne : ∀ c ∈ m, c.1 ≠ k) :
    (m.insertCell k v).findCell j = if j = k then v else m.findCell j := by
  induction m with
  | nil => simp [insertCell, findCell, eq_comm]
  | cons c rest ih =>
    obtain ⟨k', v'⟩ := c
    have hk : k' ≠ k := hne (k', v') (by simp)
    have hrest : ∀ c ∈ rest, c.1 ≠ k := fun c hc => hne c (by simp [hc])
    have hfind : findCell rest k = Config.unlistedByte := by simpa [findCell, hk] using h
    simp only [insertCell]
    split
    · simp only [findCell, ih hfind hrest]; split <;> split <;> simp_all
    · simp only [findCell, eq_comm]

theorem ne_of_mem_eraseCell (m : Memory) (k : Nat) : ∀ c ∈ m.eraseCell k, c.1 ≠ k := by
  induction m with
  | nil => simp [eraseCell]
  | cons c rest ih =>
    obtain ⟨k', v⟩ := c
    intro d hd
    simp only [eraseCell] at hd
    split at hd
    · exact ih d hd
    · rcases List.mem_cons.1 hd with rfl | hd
      · assumption
      · exact ih d hd

/-- A read after a write: the value at the address written, and every other cell as before. -/
@[simp] theorem readByte_writeByte (m : Memory) (a b v : Byte) :
    (m.writeByte a v).readByte b = if b = a then v else m.readByte b := by
  have hab : b.toNat = a.toNat ↔ b = a := BitVec.toNat_inj
  simp only [readByte, writeByte]
  split
  · rename_i hv; simp [findCell_eraseCell, hab, hv]
  · rw [findCell_insertCell _ _ _ _ (by simp [findCell_eraseCell]) (ne_of_mem_eraseCell m _)]
    simp only [findCell_eraseCell, hab]
    split <;> simp_all

/-! ### The canonical form -/

theorem wfFrom_le {lo lo' : Nat} {m : Memory} (h : wfFrom lo m = true) (hle : lo' ≤ lo) :
    wfFrom lo' m = true := by
  cases m with
  | nil => rfl
  | cons c rest =>
    simp only [wfFrom, Bool.and_eq_true, decide_eq_true_eq] at h ⊢
    exact ⟨⟨⟨by omega, h.1.1.2⟩, h.1.2⟩, h.2⟩

theorem wfFrom_eraseCell {lo : Nat} {m : Memory} (h : wfFrom lo m = true) (k : Nat) :
    wfFrom lo (m.eraseCell k) = true := by
  induction m generalizing lo with
  | nil => rfl
  | cons c rest ih =>
    obtain ⟨k', v⟩ := c
    simp only [wfFrom, Bool.and_eq_true, decide_eq_true_eq] at h
    simp only [eraseCell]
    split
    · exact wfFrom_le (ih h.2) (by omega)
    · simp only [wfFrom, Bool.and_eq_true, decide_eq_true_eq]
      exact ⟨h.1, ih h.2⟩

theorem wfFrom_insertCell {lo k : Nat} {m : Memory} {v : Byte} (h : wfFrom lo m = true) (hlo : lo ≤ k)
    (hk : k < Config.memorySize) (hv : v ≠ Config.unlistedByte) (hne : ∀ c ∈ m, c.1 ≠ k) :
    wfFrom lo (m.insertCell k v) = true := by
  induction m generalizing lo with
  | nil => simp [insertCell, wfFrom, hlo, hk, hv]
  | cons c rest ih =>
    obtain ⟨k', v'⟩ := c
    have hk' : k' ≠ k := hne (k', v') (by simp)
    have hrest : ∀ c ∈ rest, c.1 ≠ k := fun c hc => hne c (by simp [hc])
    simp only [wfFrom, Bool.and_eq_true, decide_eq_true_eq] at h
    simp only [insertCell]
    split
    · simp only [wfFrom, Bool.and_eq_true, decide_eq_true_eq]
      exact ⟨h.1, ih h.2 (by omega) hrest⟩
    · simp only [wfFrom, Bool.and_eq_true, decide_eq_true_eq, bne_iff_ne, ne_eq]
      exact ⟨⟨⟨hlo, hk⟩, hv⟩, ⟨⟨by omega, h.1.1.2⟩, by simpa using h.1.2⟩, h.2⟩

/-- A write keeps the canonical form. -/
theorem wf_writeByte {m : Memory} (h : m.wf = true) (a v : Byte) : (m.writeByte a v).wf = true := by
  simp only [wf, writeByte] at *
  split
  · exact wfFrom_eraseCell h _
  · exact wfFrom_insertCell (wfFrom_eraseCell h _) (Nat.zero_le _) a.isLt ‹_› (ne_of_mem_eraseCell m _)

/-- Writing a sequence of bytes keeps the canonical form. -/
theorem wf_writeBytes {m : Memory} (h : m.wf = true) (a : Byte) (bytes : List Byte) :
    (m.writeBytes a bytes).wf = true := by
  induction bytes generalizing m a with
  | nil => exact h
  | cons v rest ih => exact ih (wf_writeByte h a v) _

/-- Reset memory has the canonical form. -/
theorem wf_reset : State.reset.mem.wf = true := rfl

end Sys2Proof.Machine.Memory

namespace Sys2Proof.Machine.State

/-- A read after a store. -/
@[simp] theorem load_store (s : State) (a x v : Byte) :
    (s.store a v).load x = if x = a then v else s.load x :=
  Memory.readByte_writeByte s.mem a x v

end Sys2Proof.Machine.State
end

