-- ==== Sys2Proof/Laws/State.lean ====
section
/-! SUPPORT. One lemma per field per update of State, and the laws of the register file; no later proof
unfolds a record update. -/

namespace Sys2Proof.Machine.State

variable (s : State)

/-! ### `setReg` -/

@[simp] theorem setReg_regs (r : Reg) (v : Byte) : (s.setReg r v).regs = s.regs.set r.val v := rfl
@[simp] theorem setReg_pc (r : Reg) (v : Byte) : (s.setReg r v).pc = s.pc := rfl
@[simp] theorem setReg_fl (r : Reg) (v : Byte) : (s.setReg r v).fl = s.fl := rfl
@[simp] theorem setReg_mem (r : Reg) (v : Byte) : (s.setReg r v).mem = s.mem := rfl
@[simp] theorem setReg_runState (r : Reg) (v : Byte) : (s.setReg r v).runState = s.runState := rfl
@[simp] theorem setReg_fault (r : Reg) (v : Byte) : (s.setReg r v).fault = s.fault := rfl
@[simp] theorem setReg_out (r : Reg) (v : Byte) : (s.setReg r v).out = s.out := rfl

/-! ### `setPc` -/

@[simp] theorem setPc_regs (t : Byte) : (s.setPc t).regs = s.regs := rfl
@[simp] theorem setPc_pc (t : Byte) : (s.setPc t).pc = t := rfl
@[simp] theorem setPc_fl (t : Byte) : (s.setPc t).fl = s.fl := rfl
@[simp] theorem setPc_mem (t : Byte) : (s.setPc t).mem = s.mem := rfl
@[simp] theorem setPc_runState (t : Byte) : (s.setPc t).runState = s.runState := rfl
@[simp] theorem setPc_fault (t : Byte) : (s.setPc t).fault = s.fault := rfl
@[simp] theorem setPc_out (t : Byte) : (s.setPc t).out = s.out := rfl

/-! ### `setFl` -/

@[simp] theorem setFl_regs (v : Byte) : (s.setFl v).regs = s.regs := rfl
@[simp] theorem setFl_pc (v : Byte) : (s.setFl v).pc = s.pc := rfl
@[simp] theorem setFl_fl (v : Byte) : (s.setFl v).fl = v := rfl
@[simp] theorem setFl_mem (v : Byte) : (s.setFl v).mem = s.mem := rfl
@[simp] theorem setFl_runState (v : Byte) : (s.setFl v).runState = s.runState := rfl
@[simp] theorem setFl_fault (v : Byte) : (s.setFl v).fault = s.fault := rfl
@[simp] theorem setFl_out (v : Byte) : (s.setFl v).out = s.out := rfl

/-! ### `store` -/

@[simp] theorem store_regs (a v : Byte) : (s.store a v).regs = s.regs := rfl
@[simp] theorem store_pc (a v : Byte) : (s.store a v).pc = s.pc := rfl
@[simp] theorem store_fl (a v : Byte) : (s.store a v).fl = s.fl := rfl
@[simp] theorem store_mem (a v : Byte) : (s.store a v).mem = s.mem.writeByte a v := rfl
@[simp] theorem store_runState (a v : Byte) : (s.store a v).runState = s.runState := rfl
@[simp] theorem store_fault (a v : Byte) : (s.store a v).fault = s.fault := rfl
@[simp] theorem store_out (a v : Byte) : (s.store a v).out = s.out := rfl

/-! ### `output` -/

@[simp] theorem output_regs (k : OutputKind) (v : Byte) : (s.output k v).regs = s.regs := rfl
@[simp] theorem output_pc (k : OutputKind) (v : Byte) : (s.output k v).pc = s.pc := rfl
@[simp] theorem output_fl (k : OutputKind) (v : Byte) : (s.output k v).fl = s.fl := rfl
@[simp] theorem output_mem (k : OutputKind) (v : Byte) : (s.output k v).mem = s.mem := rfl
@[simp] theorem output_runState (k : OutputKind) (v : Byte) : (s.output k v).runState = s.runState := rfl
@[simp] theorem output_fault (k : OutputKind) (v : Byte) : (s.output k v).fault = s.fault := rfl
@[simp] theorem output_out (k : OutputKind) (v : Byte) : (s.output k v).out = s.out ++ [⟨k, v⟩] := rfl

/-! ### `halt` -/

@[simp] theorem halt_regs : s.halt.regs = s.regs := rfl
@[simp] theorem halt_pc : s.halt.pc = s.pc := rfl
@[simp] theorem halt_fl : s.halt.fl = s.fl := rfl
@[simp] theorem halt_mem : s.halt.mem = s.mem := rfl
@[simp] theorem halt_runState : s.halt.runState = .halted := rfl
@[simp] theorem halt_fault : s.halt.fault = s.fault := rfl
@[simp] theorem halt_out : s.halt.out = s.out := rfl

/-! ### `takeFault` -/

@[simp] theorem takeFault_regs (r : Raise) : (s.takeFault r).regs = s.regs := rfl
@[simp] theorem takeFault_pc (r : Raise) : (s.takeFault r).pc = s.pc := rfl
@[simp] theorem takeFault_fl (r : Raise) : (s.takeFault r).fl = s.fl := rfl
@[simp] theorem takeFault_mem (r : Raise) : (s.takeFault r).mem = s.mem := rfl
@[simp] theorem takeFault_runState (r : Raise) : (s.takeFault r).runState = .faulted := rfl
@[simp] theorem takeFault_fault (r : Raise) : (s.takeFault r).fault = some ⟨r.kind, s.pc, r.byte⟩ := rfl
@[simp] theorem takeFault_out (r : Raise) : (s.takeFault r).out = s.out := rfl

/-! ### Registers and memory cells as the accessors read them -/

@[simp] theorem reg_setReg (r q : Reg) (v : Byte) :
    (s.setReg r v).reg q = if q = r then v else s.reg q := by
  simp only [reg, setReg, Vector.getElem_set, Fin.ext_iff, eq_comm]

@[simp] theorem setReg_reg_self (r : Reg) : s.setReg r (s.reg r) = s := by
  simp [setReg, reg]

@[simp] theorem reg_setPc (q : Reg) (t : Byte) : (s.setPc t).reg q = s.reg q := rfl
@[simp] theorem reg_setFl (q : Reg) (v : Byte) : (s.setFl v).reg q = s.reg q := rfl
@[simp] theorem reg_store (q : Reg) (a v : Byte) : (s.store a v).reg q = s.reg q := rfl
@[simp] theorem reg_output (q : Reg) (k : OutputKind) (v : Byte) : (s.output k v).reg q = s.reg q := rfl
@[simp] theorem reg_halt (q : Reg) : s.halt.reg q = s.reg q := rfl
@[simp] theorem reg_takeFault (q : Reg) (r : Raise) : (s.takeFault r).reg q = s.reg q := rfl

@[simp] theorem load_setReg (x : Byte) (r : Reg) (v : Byte) : (s.setReg r v).load x = s.load x := rfl
@[simp] theorem load_setPc (x : Byte) (t : Byte) : (s.setPc t).load x = s.load x := rfl
@[simp] theorem load_setFl (x : Byte) (v : Byte) : (s.setFl v).load x = s.load x := rfl
@[simp] theorem load_output (x : Byte) (k : OutputKind) (v : Byte) : (s.output k v).load x = s.load x := rfl
@[simp] theorem load_halt (x : Byte) : s.halt.load x = s.load x := rfl
@[simp] theorem load_takeFault (x : Byte) (r : Raise) : (s.takeFault r).load x = s.load x := rfl

/-- Two states with the same fields are the same; the registers one by one. -/
theorem ext_fields {s t : State} (regs : ∀ r, s.reg r = t.reg r) (pc : s.pc = t.pc) (fl : s.fl = t.fl)
    (mem : s.mem = t.mem) (runState : s.runState = t.runState) (fault : s.fault = t.fault)
    (out : s.out = t.out) : s = t := by
  have h : s.regs = t.regs := Vector.ext fun i hi => regs ⟨i, hi⟩
  cases s; cases t; simp_all

/-! ### Registers at reset -/

@[simp] theorem reset_reg (r : Reg) : State.reset.reg r = 0 := by
  simp [reset, reg]

end Sys2Proof.Machine.State
end

