-- ==== Sys2Proof/Laws/Ops.lean ====
section
/-! SUPPORT. What each shared operation can do, said once: the operand check, the stack halves, the
post-mask, the cycle around a handler, and the comparison. -/

namespace Sys2Proof.Machine

/-! ### The operand check -/

/-- `reg` on the byte that names a register answers it. -/
@[simp] theorem reg_registerByte (r : Reg) : reg (registerByte r) = .ok r := by
  revert r; decide

/-- The byte that names a register is below 8. -/
theorem toNat_registerByte_lt (r : Reg) : (registerByte r).toNat < 8 := by
  revert r; decide

/-- Bits 2 to 0 of the byte that names a register are its number. -/
@[simp] theorem registerBits_registerByte (r : Reg) : registerBits (registerByte r) = r := by
  revert r; decide

/-- A byte below 8 is the one that names its register. -/
theorem eq_registerByte_of_lt {b : Byte} (h : b.toNat < 8) : b = registerByte ⟨b.toNat, h⟩ := by
  apply BitVec.eq_of_toNat_eq
  simp [registerByte]

/-- The check of bits 7 to 3 is the comparison with 8 (R144). -/
theorem highBits_eq_zero_iff (b : Byte) : b.extractLsb' 3 5 = 0#5 ↔ b.toNat < 8 := by
  have h := b.isLt
  rw [← BitVec.toNat_inj]
  simp only [BitVec.extractLsb'_toNat, BitVec.toNat_ofNat, Nat.shiftRight_eq_div_pow]
  omega

/-- `reg` on a byte of 8 or more raises IllegalRegister with that byte. -/
theorem reg_of_illegal {b : Byte} (h : 8 ≤ b.toNat) : reg b = .error ⟨.illegalRegister, b⟩ := by
  rw [reg, if_neg]
  rw [highBits_eq_zero_iff]; omega

/-- `reg` answers a register or raises, and which of the two is the byte's legality. -/
theorem reg_cases (b : Byte) :
    (∃ r, b = registerByte r ∧ reg b = .ok r) ∨
      (8 ≤ b.toNat ∧ reg b = .error ⟨.illegalRegister, b⟩) := by
  by_cases h : b.toNat < 8
  · left
    refine ⟨⟨b.toNat, h⟩, eq_registerByte_of_lt h, ?_⟩
    conv_lhs => rw [eq_registerByte_of_lt h]
    exact reg_registerByte _
  · exact .inr ⟨by omega, reg_of_illegal (by omega)⟩

/-- A legal register byte is one below 8. -/
theorem legalRegisterByte_iff (b : Byte) : legalRegisterByte b = true ↔ b.toNat < 8 := by
  simp only [legalRegisterByte, beq_iff_eq, highBits_eq_zero_iff]

@[simp] theorem withReg_registerByte (r : Reg) (f : Reg → State) :
    withReg (registerByte r) f = .ok (f r) := by
  simp [withReg]

theorem withReg_of_illegal {a : Byte} (h : 8 ≤ a.toNat) (f : Reg → State) :
    withReg a f = .error ⟨.illegalRegister, a⟩ := by
  simp [withReg, reg_of_illegal h]

/-- A one-register handler writes its state for a legal byte, or raises IllegalRegister. -/
theorem withReg_cases (a : Byte) (f : Reg → State) :
    (∃ r, a = registerByte r ∧ withReg a f = .ok (f r)) ∨
      (8 ≤ a.toNat ∧ withReg a f = .error ⟨.illegalRegister, a⟩) := by
  rcases reg_cases a with ⟨r, rfl, -⟩ | ⟨h, -⟩
  · exact .inl ⟨r, rfl, by simp⟩
  · exact .inr ⟨h, withReg_of_illegal h f⟩

@[simp] theorem withReg2_registerByte (r q : Reg) (f : Reg → Reg → State) :
    withReg2 (registerByte r) (registerByte q) f = .ok (f r q) := by
  simp [withReg2, reg2]

theorem withReg2_of_illegalA {a : Byte} (h : 8 ≤ a.toNat) (b : Byte) (f : Reg → Reg → State) :
    withReg2 a b f = .error ⟨.illegalRegister, a⟩ := by
  simp [withReg2, reg2, reg_of_illegal h]

theorem withReg2_of_illegalB (r : Reg) {b : Byte} (h : 8 ≤ b.toNat) (f : Reg → Reg → State) :
    withReg2 (registerByte r) b f = .error ⟨.illegalRegister, b⟩ := by
  simp [withReg2, reg2, reg_of_illegal h]

/-- A two-register handler writes its state for legal bytes, or raises IllegalRegister, on operand-A
first (R214). -/
theorem withReg2_cases (a b : Byte) (f : Reg → Reg → State) :
    (∃ r q, a = registerByte r ∧ b = registerByte q ∧ withReg2 a b f = .ok (f r q)) ∨
      (8 ≤ a.toNat ∧ withReg2 a b f = .error ⟨.illegalRegister, a⟩) ∨
      (∃ r, a = registerByte r ∧ 8 ≤ b.toNat ∧ withReg2 a b f = .error ⟨.illegalRegister, b⟩) := by
  rcases reg_cases a with ⟨r, rfl, -⟩ | ⟨ha, -⟩
  · rcases reg_cases b with ⟨q, rfl, -⟩ | ⟨hb, -⟩
    · exact .inl ⟨r, q, rfl, rfl, by simp⟩
    · exact .inr (.inr ⟨r, rfl, hb, withReg2_of_illegalB r hb f⟩)
  · exact .inr (.inl ⟨ha, withReg2_of_illegalA ha b f⟩)

/-- What a one-register handler that wrote its state was given. -/
theorem withReg_eq_ok {a : Byte} {f : Reg → State} {u : State} (h : withReg a f = .ok u) :
    ∃ r, a = registerByte r ∧ u = f r := by
  rcases withReg_cases a f with ⟨r, ha, h'⟩ | ⟨_, h'⟩
  · rw [h] at h'; cases h'; exact ⟨r, ha, rfl⟩
  · rw [h] at h'; cases h'

/-- What a one-register handler that raised was given. -/
theorem withReg_eq_error {a : Byte} {f : Reg → State} {e : Raise} (h : withReg a f = .error e) :
    8 ≤ a.toNat ∧ e = ⟨.illegalRegister, a⟩ := by
  rcases withReg_cases a f with ⟨r, ha, h'⟩ | ⟨ha, h'⟩
  · rw [h] at h'; cases h'
  · rw [h] at h'; cases h'; exact ⟨ha, rfl⟩

/-- What a two-register handler that wrote its state was given. -/
theorem withReg2_eq_ok {a b : Byte} {f : Reg → Reg → State} {u : State}
    (h : withReg2 a b f = .ok u) : ∃ r q, a = registerByte r ∧ b = registerByte q ∧ u = f r q := by
  rcases withReg2_cases a b f with ⟨r, q, ha, hb, h'⟩ | ⟨_, h'⟩ | ⟨_, _, _, h'⟩
  · rw [h] at h'; cases h'; exact ⟨r, q, ha, hb, rfl⟩
  all_goals rw [h] at h'; cases h'

/-- What a two-register handler that raised was given: the first illegal byte is told (R214). -/
theorem withReg2_eq_error {a b : Byte} {f : Reg → Reg → State} {e : Raise}
    (h : withReg2 a b f = .error e) :
    (8 ≤ a.toNat ∧ e = ⟨.illegalRegister, a⟩) ∨
      (a.toNat < 8 ∧ 8 ≤ b.toNat ∧ e = ⟨.illegalRegister, b⟩) := by
  rcases withReg2_cases a b f with ⟨r, q, ha, hb, h'⟩ | ⟨ha, h'⟩ | ⟨r, ha, hb, h'⟩
  · rw [h] at h'; cases h'
  · rw [h] at h'; cases h'; exact .inl ⟨ha, rfl⟩
  · rw [h] at h'; cases h'; exact .inr ⟨ha ▸ toNat_registerByte_lt r, hb, rfl⟩

/-! ### The cycle around a handler -/

/-- The post-mask changes nothing (R160). -/
@[simp] theorem postMask_eq (i : Instr) (s : State) : postMask i s = s := by
  have h (v : Byte) : BitVec.ofNat 8 (v.toNat % 256) = v := by
    apply BitVec.eq_of_toNat_eq
    simp [v.isLt]
  simp only [postMask, h, State.setReg_reg_self, ite_self]

theorem complete_ok (i : Instr) (s t : State) : complete i s (.ok t) = .next (advance i t) := by
  simp [complete]

theorem complete_error (i : Instr) (s : State) (r : Raise) :
    complete i s (.error r) = .next (s.takeFault r) := rfl

/-- The cycle always answers a next state: the handler's, advanced, or the fault taken. -/
theorem complete_next {i : Instr} {s t : State} {h : Except Raise State} (e : complete i s h = .next t) :
    (∃ u, h = .ok u ∧ t = advance i u) ∨ (∃ r, h = .error r ∧ t = s.takeFault r) := by
  cases h with
  | ok u => rw [complete_ok] at e; cases e; exact .inl ⟨u, rfl, rfl⟩
  | error r => rw [complete_error] at e; cases e; exact .inr ⟨r, rfl, rfl⟩

section advance

variable (i : Instr) (s : State)

/-- The advance moves pc only when `sets_pc` is 0 (R161). -/
theorem advance_pc :
    (advance i s).pc = if setsPc i.opcode then s.pc else s.pc + BitVec.ofNat 8 (instrLength i.opcode) := by
  unfold advance; split <;> rfl

@[simp] theorem advance_regs : (advance i s).regs = s.regs := by unfold advance; split <;> rfl
@[simp] theorem advance_fl : (advance i s).fl = s.fl := by unfold advance; split <;> rfl
@[simp] theorem advance_mem : (advance i s).mem = s.mem := by unfold advance; split <;> rfl
@[simp] theorem advance_runState : (advance i s).runState = s.runState := by
  unfold advance; split <;> rfl
@[simp] theorem advance_fault : (advance i s).fault = s.fault := by unfold advance; split <;> rfl
@[simp] theorem advance_out : (advance i s).out = s.out := by unfold advance; split <;> rfl
@[simp] theorem reg_advance (q : Reg) : (advance i s).reg q = s.reg q := by
  unfold advance; split <;> rfl
@[simp] theorem load_advance (x : Byte) : (advance i s).load x = s.load x := by
  unfold advance; split <;> rfl

end advance

/-! ### The stack halves -/

namespace State

variable (s : State)

theorem sp_eq : s.sp = s.reg Config.stackPointer := rfl

theorem reg_openSlot (q : Reg) :
    s.openSlot.reg q = if q = Config.stackPointer then s.sp - 1 else s.reg q := by
  simp [openSlot, pushAddress]

@[simp] theorem sp_openSlot : s.openSlot.sp = s.pushAddress := by simp [openSlot, sp]

theorem openSlot_storeTop (v : Byte) :
    s.openSlot.storeTop v = (s.setReg Config.stackPointer s.pushAddress).store s.pushAddress v := by
  simp only [storeTop, sp_openSlot]; rfl

theorem reg_closeSlot (q : Reg) :
    s.closeSlot.reg q = if q = Config.stackPointer then s.sp + 1 else s.reg q := by
  simp [closeSlot]

end State

/-! ### The comparison -/

/-- Exactly one of the three bits, by the three-way comparison (R190). -/
theorem compareFlags_cases (x y : Byte) :
    (x = y ∧ compareFlags x y = flagsEqual) ∨ (y < x ∧ compareFlags x y = flagsGreater) ∨
      (x < y ∧ compareFlags x y = flagsLess) := by
  simp only [compareFlags, BitVec.lt_def, ← BitVec.toNat_inj]
  rcases Nat.lt_trichotomy x.toNat y.toNat with h | h | h
  · simp [h, h.ne, Nat.lt_asymm h]
  · simp [h]
  · simp [h, h.ne', Nat.lt_asymm h]

end Sys2Proof.Machine
end

