-- ==== Sys2Proof/Laws/Exec.lean ====
section
/-! SUPPORT. What an instruction can do, said once: every meaning is the cycle around its handler
(`exec_eq_complete`), so it either advances the handler's state or takes a fault (`exec_next`). -/

namespace Sys2Proof.Machine

/-- What the handler of an instruction answers: the state it writes, or the fault it raises. -/
def handled (i : Instr) (s : State) : Except Raise State :=
  match i with
  | .nop => .ok s
  | .hlt => .ok s.halt
  | .ret => .ok (s.setPc s.top).closeSlot
  | .push a => withReg a fun ra => s.openSlot.storeTop (s.openSlot.reg ra)
  | .pop a => withReg a fun ra => (s.setReg ra s.top).closeSlot
  | .prn a => withReg a fun ra => s.output .num (s.reg ra)
  | .pra a => withReg a fun ra => s.output .char (s.reg ra)
  | .call a => withReg a fun ra =>
      (s.openSlot.storeTop (returnAddress s)).setPc ((s.openSlot.storeTop (returnAddress s)).reg ra)
  | .jmp a => withReg a fun ra => s.setPc (s.reg ra)
  | .jeq a => withReg a fun ra => jumpWhen s.flagE s (s.reg ra)
  | .jne a => withReg a fun ra => jumpWhen (!s.flagE) s (s.reg ra)
  | .inc a => withReg a fun ra => s.setReg ra (s.reg ra + 1)
  | .dec a => withReg a fun ra => s.setReg ra (s.reg ra - 1)
  | .ldi a b => withReg a fun ra => s.setReg ra (immediate b)
  | .ld a b => withReg2 a b fun ra rb => s.setReg ra (indirect s rb)
  | .add a b => withReg2 a b fun ra rb => s.setReg ra (s.reg ra + s.reg rb)
  | .mul a b => withReg2 a b fun ra rb => s.setReg ra (s.reg ra * s.reg rb)
  | .cmp a b => withReg2 a b fun ra rb => s.setFl (compareFlags (s.reg ra) (s.reg rb))
  | .iret => .error ⟨.unimplementedOpcode, Instr.opcode .iret⟩
  | .int a => .error ⟨.unimplementedOpcode, Instr.opcode (.int a)⟩
  | .jgt a => .error ⟨.unimplementedOpcode, Instr.opcode (.jgt a)⟩
  | .jlt a => .error ⟨.unimplementedOpcode, Instr.opcode (.jlt a)⟩
  | .jle a => .error ⟨.unimplementedOpcode, Instr.opcode (.jle a)⟩
  | .jge a => .error ⟨.unimplementedOpcode, Instr.opcode (.jge a)⟩
  | .not a => .error ⟨.unimplementedOpcode, Instr.opcode (.not a)⟩
  | .st a b => .error ⟨.unimplementedOpcode, Instr.opcode (.st a b)⟩
  | .sub a b => .error ⟨.unimplementedOpcode, Instr.opcode (.sub a b)⟩
  | .div a b => .error ⟨.unimplementedOpcode, Instr.opcode (.div a b)⟩
  | .mod a b => .error ⟨.unimplementedOpcode, Instr.opcode (.mod a b)⟩
  | .and a b => .error ⟨.unimplementedOpcode, Instr.opcode (.and a b)⟩
  | .or a b => .error ⟨.unimplementedOpcode, Instr.opcode (.or a b)⟩
  | .xor a b => .error ⟨.unimplementedOpcode, Instr.opcode (.xor a b)⟩
  | .shl a b => .error ⟨.unimplementedOpcode, Instr.opcode (.shl a b)⟩
  | .shr a b => .error ⟨.unimplementedOpcode, Instr.opcode (.shr a b)⟩

/-- Every meaning is the cycle around its handler (R164). -/
theorem exec_eq_complete (i : Instr) (s : State) : exec i s = complete i s (handled i s) := by
  cases i <;> rfl

/-- An instruction advances its handler's state, or takes the fault its handler raises. -/
theorem exec_next {i : Instr} {s t : State} (h : exec i s = .next t) :
    (∃ u, handled i s = .ok u ∧ t = advance i u) ∨
      (∃ r, handled i s = .error r ∧ t = s.takeFault r) :=
  complete_next (exec_eq_complete i s ▸ h)

theorem exec_of_handled_ok {i : Instr} {s u : State} (h : handled i s = .ok u) :
    exec i s = .next (advance i u) := by
  rw [exec_eq_complete, h, complete_ok]

theorem exec_of_handled_error {i : Instr} {s : State} {r : Raise} (h : handled i s = .error r) :
    exec i s = .next (s.takeFault r) := by
  rw [exec_eq_complete, h, complete_error]

/-! ### Decoding -/

/-- A row of the dispatch table builds instructions with its own opcode byte, status and operands. -/
theorem dispatchRow_sound : ∀ row ∈ dispatchTable, ∀ a b,
    (row.instr a b).opcode = row.opcode ∧
      (row.instr a b).operands = [a, b].take (operandCount row.opcode) := by
  simp only [dispatchTable, dispatchRows0, dispatchRows1, dispatchRows2, List.cons_append,
    List.nil_append, List.forall_mem_cons]
  repeat' apply And.intro
  all_goals first | exact fun _ _ => ⟨rfl, rfl⟩ | simp

/-- The entry of an opcode byte is a row of the table with that byte. -/
theorem dispatchEntry_some {op : Byte} {row : DispatchRow} (h : dispatchEntry op = some row) :
    row ∈ dispatchTable ∧ row.opcode = op := by
  refine ⟨List.mem_of_find?_eq_some h, ?_⟩
  simpa using List.find?_some h

/-- A decoded instruction has the window's opcode byte and, by its length, its operand bytes. -/
theorem decode_ok {w : Window} {i : Instr} (h : decode w = .ok i) :
    i.opcode = w.op ∧ i.operands = [w.a, w.b].take (operandCount w.op) := by
  unfold decode at h
  split at h
  · rename_i row hrow
    obtain ⟨hmem, hop⟩ := dispatchEntry_some hrow
    cases h
    exact hop ▸ dispatchRow_sound row hmem w.a w.b
  · cases h

/-- A byte with no table entry is rejected, by name. -/
theorem decode_of_unknown {w : Window} (h : dispatchEntry w.op = none) :
    decode w = .error (.unknownOpcode w.op) := by
  simp [decode, h]

end Sys2Proof.Machine
end

