-- ==== Sys2Proof/Laws/PerInstr.lean ====
section
/-! SUPPORT. The per-instruction family `Sys2Proof.Laws.EncodedLength`: an instruction is encoded in
as many bytes as its opcode byte says, its opcode byte first, and its register operands are among its
operand bytes (spec 30_encoding.md R140, R145, R151). -/

namespace Sys2Proof.Laws.EncodedLength

/-- What the family says of an instruction. -/
def Statement (i : Instr) : Prop :=
  (encode i).length = instrLength i.opcode ∧ (encode i).head? = some i.opcode ∧
    ∀ r ∈ i.registerOperands, r ∈ i.operands

/-- The family's statement from the opcode byte and the number of operand bytes. -/
theorem of_parts {i : Instr} (op : Byte) (n : Nat) (hop : i.opcode = op) (hlen : i.operands.length = n)
    (hcount : operandCount op = n) (hreg : ∀ r ∈ i.registerOperands, r ∈ i.operands) : Statement i := by
  refine ⟨?_, rfl, hreg⟩
  simp only [encode, List.length_cons, instrLength, hop, hlen, hcount]
  omega

theorem nop : Statement .nop := of_parts 0x00 0 rfl rfl (by decide) (nofun)
theorem hlt : Statement .hlt := of_parts 0x01 0 rfl rfl (by decide) (nofun)
theorem ret : Statement .ret := of_parts 0x11 0 rfl rfl (by decide) (nofun)
theorem iret : Statement .iret := of_parts 0x13 0 rfl rfl (by decide) (nofun)
theorem push (a : Byte) : Statement (.push a) := of_parts 0x45 1 rfl rfl (by decide) (fun _ h => h)
theorem pop (a : Byte) : Statement (.pop a) := of_parts 0x46 1 rfl rfl (by decide) (fun _ h => h)
theorem prn (a : Byte) : Statement (.prn a) := of_parts 0x47 1 rfl rfl (by decide) (fun _ h => h)
theorem pra (a : Byte) : Statement (.pra a) := of_parts 0x48 1 rfl rfl (by decide) (fun _ h => h)
theorem call (a : Byte) : Statement (.call a) := of_parts 0x50 1 rfl rfl (by decide) (fun _ h => h)
theorem int (a : Byte) : Statement (.int a) := of_parts 0x52 1 rfl rfl (by decide) (nofun)
theorem jmp (a : Byte) : Statement (.jmp a) := of_parts 0x54 1 rfl rfl (by decide) (fun _ h => h)
theorem jeq (a : Byte) : Statement (.jeq a) := of_parts 0x55 1 rfl rfl (by decide) (fun _ h => h)
theorem jne (a : Byte) : Statement (.jne a) := of_parts 0x56 1 rfl rfl (by decide) (fun _ h => h)
theorem jgt (a : Byte) : Statement (.jgt a) := of_parts 0x57 1 rfl rfl (by decide) (nofun)
theorem jlt (a : Byte) : Statement (.jlt a) := of_parts 0x58 1 rfl rfl (by decide) (nofun)
theorem jle (a : Byte) : Statement (.jle a) := of_parts 0x59 1 rfl rfl (by decide) (nofun)
theorem jge (a : Byte) : Statement (.jge a) := of_parts 0x5A 1 rfl rfl (by decide) (nofun)
theorem inc (a : Byte) : Statement (.inc a) := of_parts 0x65 1 rfl rfl (by decide) (fun _ h => h)
theorem dec (a : Byte) : Statement (.dec a) := of_parts 0x66 1 rfl rfl (by decide) (fun _ h => h)
theorem not (a : Byte) : Statement (.not a) := of_parts 0x69 1 rfl rfl (by decide) (nofun)
theorem ldi (a b : Byte) : Statement (.ldi a b) := of_parts 0x82 2 rfl rfl (by decide) (by simp [Instr.registerOperands, Instr.operands])
theorem ld (a b : Byte) : Statement (.ld a b) := of_parts 0x83 2 rfl rfl (by decide) (fun _ h => h)
theorem st (a b : Byte) : Statement (.st a b) := of_parts 0x84 2 rfl rfl (by decide) (nofun)
theorem add (a b : Byte) : Statement (.add a b) := of_parts 0xA0 2 rfl rfl (by decide) (fun _ h => h)
theorem sub (a b : Byte) : Statement (.sub a b) := of_parts 0xA1 2 rfl rfl (by decide) (nofun)
theorem mul (a b : Byte) : Statement (.mul a b) := of_parts 0xA2 2 rfl rfl (by decide) (fun _ h => h)
theorem div (a b : Byte) : Statement (.div a b) := of_parts 0xA3 2 rfl rfl (by decide) (nofun)
theorem mod (a b : Byte) : Statement (.mod a b) := of_parts 0xA4 2 rfl rfl (by decide) (nofun)
theorem cmp (a b : Byte) : Statement (.cmp a b) := of_parts 0xA7 2 rfl rfl (by decide) (fun _ h => h)
theorem and (a b : Byte) : Statement (.and a b) := of_parts 0xA8 2 rfl rfl (by decide) (nofun)
theorem or (a b : Byte) : Statement (.or a b) := of_parts 0xAA 2 rfl rfl (by decide) (nofun)
theorem xor (a b : Byte) : Statement (.xor a b) := of_parts 0xAB 2 rfl rfl (by decide) (nofun)
theorem shl (a b : Byte) : Statement (.shl a b) := of_parts 0xAC 2 rfl rfl (by decide) (nofun)
theorem shr (a b : Byte) : Statement (.shr a b) := of_parts 0xAD 2 rfl rfl (by decide) (nofun)

end Sys2Proof.Laws.EncodedLength
end

