-- ==== Sys2Proof/Machine/Assembly.lean ====
section
/-! DEFINITION. The assembler spelling of an instruction (spec 30_encoding.md R153). It has no part in
what an instruction does: the core never sees it (N2). -/

namespace Sys2Proof

/-- The mnemonic of an instruction (R146; beyond LDI, MUL, PRN and HLT the spec's supplied names, log 1). -/
def Instr.mnemonic : Instr → String
  | .nop => "NOP"
  | .hlt => "HLT"
  | .ret => "RET"
  | .iret => "IRET"
  | .push _ => "PUSH"
  | .pop _ => "POP"
  | .prn _ => "PRN"
  | .pra _ => "PRA"
  | .call _ => "CALL"
  | .int _ => "INT"
  | .jmp _ => "JMP"
  | .jeq _ => "JEQ"
  | .jne _ => "JNE"
  | .jgt _ => "JGT"
  | .jlt _ => "JLT"
  | .jle _ => "JLE"
  | .jge _ => "JGE"
  | .inc _ => "INC"
  | .dec _ => "DEC"
  | .not _ => "NOT"
  | .ldi _ _ => "LDI"
  | .ld _ _ => "LD"
  | .st _ _ => "ST"
  | .add _ _ => "ADD"
  | .sub _ _ => "SUB"
  | .mul _ _ => "MUL"
  | .div _ _ => "DIV"
  | .mod _ _ => "MOD"
  | .cmp _ _ => "CMP"
  | .and _ _ => "AND"
  | .or _ _ => "OR"
  | .xor _ _ => "XOR"
  | .shl _ _ => "SHL"
  | .shr _ _ => "SHR"

/-- The spelling of a register operand, `R0` to `R7`; an illegal byte has none (R144, R153). -/
def registerText (r : Byte) : Option String :=
  match r.toNat with
  | 0 => some "R0"
  | 1 => some "R1"
  | 2 => some "R2"
  | 3 => some "R3"
  | 4 => some "R4"
  | 5 => some "R5"
  | 6 => some "R6"
  | 7 => some "R7"
  | _ => none

/-- The spelling of the second operand: a number for LDI's immediate, a register for every other.
DESIGN CHOICE: the number is written in decimal; R153 says only "an immediate is a number", and the
vectors of the spec write both decimal and hexadecimal (log 14; unsafe for claims about the text). -/
def secondOperandText (i : Instr) (b : Byte) : Option String :=
  match i with
  | .ldi _ _ => some (toString b.toNat)
  | _ => registerText b

/-- The assembler line of an instruction: `MNEMONIC`, `MNEMONIC Rn`, `MNEMONIC Ra,Rb` or
`MNEMONIC Rn,imm`, operand-A first (R153); none when a register byte has no spelling. -/
def Instr.assembly (i : Instr) : Option String :=
  match i.operands with
  | [] => some i.mnemonic
  | [a] => (registerText a).map fun ra => i.mnemonic ++ " " ++ ra
  | a :: b :: _ =>
    match registerText a, secondOperandText i b with
    | some ra, some rb => some (i.mnemonic ++ " " ++ ra ++ "," ++ rb)
    | _, _ => none

end Sys2Proof
end

