-- ==== Sys2Proof/Tests/Slice0.lean ====
section
/-! SUPPORT. The model's own tests, their expected results taken from spec/95_test_vectors.md and the
encoding table of 30_encoding.md, the smoke of WellFormed, and for every statement with hypotheses
a state that meets them. -/

namespace Sys2Proof.Tests

open Sys2Proof Sys2Proof.Machine Sys2Proof.Claims

/-- The start state with these bytes placed from address `pc`, and pc there. -/
def at_ (pc : Byte) (bytes : List Byte) : State :=
  { State.reset with pc := pc, mem := Memory.writeBytes [] pc bytes }

/-- One step, when it gives a next state. -/
def next? (s : State) : Option State :=
  match step s with
  | .next t => some t
  | _ => none

/-- One field of the state after one step. -/
def stepped {α : Type} (s : State) (f : State → α) : Option α := (next? s).map f

/-- What a step leaves in the run state and the fault record. -/
def ending (s : State) : RunState × Option FaultRecord := (s.runState, s.fault)

/-! ### Well-formedness smoke: one ill-formed term for each check -/

theorem test_wf_refuses_register_byte_a : (Instr.add 8 0).wf = false := by decide
theorem test_wf_refuses_register_byte_b : (Instr.add 7 8).wf = false := by decide
theorem test_wf_refuses_one_operand_byte : (Instr.push 0xFF).wf = false := by decide
theorem test_wf_accepts_any_immediate : (Instr.ldi 7 0xFF).wf = true := by decide
theorem test_wf_accepts_unexamined_operands : (Instr.sub 0xFF 0xFF).wf = true := by decide

/-! ### Decoding: every constructor, by the bits of R146's table -/

theorem test_decode_no_operand :
    decode ⟨0b00000000, 1, 2⟩ = .ok .nop ∧ decode ⟨0b00000001, 1, 2⟩ = .ok .hlt ∧
    decode ⟨0b00010001, 1, 2⟩ = .ok .ret ∧ decode ⟨0b00010011, 1, 2⟩ = .ok .iret := by
  refine ⟨?_, ?_, ?_, ?_⟩ <;> rfl

theorem test_decode_stack_and_output :
    decode ⟨0b01000101, 1, 2⟩ = .ok (.push 1) ∧ decode ⟨0b01000110, 1, 2⟩ = .ok (.pop 1) ∧
    decode ⟨0b01000111, 1, 2⟩ = .ok (.prn 1) ∧ decode ⟨0b01001000, 1, 2⟩ = .ok (.pra 1) ∧
    decode ⟨0b01010000, 1, 2⟩ = .ok (.call 1) ∧ decode ⟨0b01010010, 1, 2⟩ = .ok (.int 1) := by
  refine ⟨?_, ?_, ?_, ?_, ?_, ?_⟩ <;> rfl

theorem test_decode_jumps :
    decode ⟨0b01010100, 1, 2⟩ = .ok (.jmp 1) ∧ decode ⟨0b01010101, 1, 2⟩ = .ok (.jeq 1) ∧
    decode ⟨0b01010110, 1, 2⟩ = .ok (.jne 1) ∧ decode ⟨0b01010111, 1, 2⟩ = .ok (.jgt 1) ∧
    decode ⟨0b01011000, 1, 2⟩ = .ok (.jlt 1) ∧ decode ⟨0b01011001, 1, 2⟩ = .ok (.jle 1) ∧
    decode ⟨0b01011010, 1, 2⟩ = .ok (.jge 1) := by
  refine ⟨?_, ?_, ?_, ?_, ?_, ?_, ?_⟩ <;> rfl

theorem test_decode_unary_alu :
    decode ⟨0b01100101, 1, 2⟩ = .ok (.inc 1) ∧ decode ⟨0b01100110, 1, 2⟩ = .ok (.dec 1) ∧
    decode ⟨0b01101001, 1, 2⟩ = .ok (.not 1) := by
  refine ⟨?_, ?_, ?_⟩ <;> rfl

theorem test_decode_load_store :
    decode ⟨0b10000010, 1, 2⟩ = .ok (.ldi 1 2) ∧ decode ⟨0b10000011, 1, 2⟩ = .ok (.ld 1 2) ∧
    decode ⟨0b10000100, 1, 2⟩ = .ok (.st 1 2) := by
  refine ⟨?_, ?_, ?_⟩ <;> rfl

theorem test_decode_arithmetic :
    decode ⟨0b10100000, 1, 2⟩ = .ok (.add 1 2) ∧ decode ⟨0b10100001, 1, 2⟩ = .ok (.sub 1 2) ∧
    decode ⟨0b10100010, 1, 2⟩ = .ok (.mul 1 2) ∧ decode ⟨0b10100011, 1, 2⟩ = .ok (.div 1 2) ∧
    decode ⟨0b10100100, 1, 2⟩ = .ok (.mod 1 2) ∧ decode ⟨0b10100111, 1, 2⟩ = .ok (.cmp 1 2) := by
  refine ⟨?_, ?_, ?_, ?_, ?_, ?_⟩ <;> rfl

theorem test_decode_bitwise :
    decode ⟨0b10101000, 1, 2⟩ = .ok (.and 1 2) ∧ decode ⟨0b10101010, 1, 2⟩ = .ok (.or 1 2) ∧
    decode ⟨0b10101011, 1, 2⟩ = .ok (.xor 1 2) ∧ decode ⟨0b10101100, 1, 2⟩ = .ok (.shl 1 2) ∧
    decode ⟨0b10101101, 1, 2⟩ = .ok (.shr 1 2) := by
  refine ⟨?_, ?_, ?_, ?_, ?_⟩ <;> rfl

theorem test_decode_rejects_unknown :
    decode ⟨0x02, 0, 0⟩ = .error (.unknownOpcode 0x02) ∧
    decode ⟨0xFF, 0, 0⟩ = .error (.unknownOpcode 0xFF) ∧
    decode ⟨0xA5, 0, 1⟩ = .error (.unknownOpcode 0xA5) := by
  refine ⟨?_, ?_, ?_⟩ <;> rfl

theorem test_dispatch_rows_do_not_overlap :
    dispatchTable.Pairwise (fun r r' => r.opcode ≠ r'.opcode) := by decide

/-- V1. -/
theorem test_format_fields_of_V1 :
    (operandCount 0xA2, isAlu 0xA2, setsPc 0xA2) = (2, true, false) ∧
    (operandCount 0x55, isAlu 0x55, setsPc 0x55) = (1, false, true) ∧
    (operandCount 0xFF, isAlu 0xFF, setsPc 0xFF) = (3, true, true) ∧
    (operandCount 0x12, isAlu 0x12, setsPc 0x12) = (0, false, true) := by decide

/-- An instruction placed by the host's interface is fetched and run (V3.1). -/
theorem test_withFetchWord_runs_ldi :
    stepped (State.reset.withFetchWord 24 0x080082) (fun t => (t.reg 0, t.pc)) = some (8, 3) := by decide

/-! ### Steps -/

/-- V1.2. -/
theorem test_add_across_the_top_of_memory :
    stepped (((at_ 0xFE [0xA0, 0x00, 0x01]).setReg 0 1).setReg 1 2) (fun t => (t.reg 0, t.pc))
      = some (3, 1) := by decide
/-- V2.1 and V2.16. -/
theorem test_add_wraps_and_keeps_flags :
    stepped ((((at_ 0 [0xA0, 0x00, 0x01]).setReg 0 200).setReg 1 100).setFl 4)
      (fun t => (t.reg 0, t.fl)) = some (44, 4) := by decide
/-- V2.7. -/
theorem test_mul_keeps_the_low_byte :
    stepped (((at_ 0 [0xA2, 0x00, 0x01]).setReg 0 200).setReg 1 2) (fun t => t.reg 0) = some 144 := by
  decide
/-- V2.11. -/
theorem test_inc_wraps :
    stepped ((at_ 0 [0x65, 0x03]).setReg 3 255) (fun t => (t.reg 3, t.pc)) = some (0, 2) := by decide
/-- V2.13. -/
theorem test_dec_wraps :
    stepped (at_ 0 [0x66, 0x02]) (fun t => (t.reg 2, t.pc)) = some (255, 2) := by decide
/-- V2.19. -/
theorem test_add_reports_operand_a_first :
    stepped (at_ 0x10 [0xA0, 0x09, 0x08]) ending
      = some (.faulted, some ⟨.illegalRegister, 0x10, 0x09⟩) := by decide
/-- V2.21. -/
theorem test_sub_is_unimplemented_before_its_operands :
    stepped (at_ 0x10 [0xA1, 0xFF, 0xFF]) (fun t => (ending t, t.pc))
      = some ((.faulted, some ⟨.unimplementedOpcode, 0x10, 0b10100001⟩), 0x10) := by decide
/-- V3.2. -/
theorem test_ldi_sets_sp :
    stepped (at_ 0 [0x82, 0x07, 0xF4]) (fun t => (t.sp, t.pc)) = some (0xF4, 3) := by decide
/-- V3.6. -/
theorem test_ld_through_its_own_register :
    stepped (((at_ 0 [0x83, 0x01, 0x01]).setReg 1 0x05).store 0x05 0x99) (fun t => t.reg 1)
      = some 0x99 := by decide
/-- V3.7. -/
theorem test_ld_reads_code :
    stepped ((at_ 0x10 [0x83, 0x00, 0x01]).setReg 1 0x10) (fun t => t.reg 0) = some 0x83 := by decide
/-- V4.2. -/
theorem test_push_wraps :
    stepped ((at_ 0 [0x45, 0x00]).setReg 0 7) (fun t => (t.sp, t.load 0xFF, t.pc))
      = some (0xFF, 7, 2) := by decide
/-- V4.3. -/
theorem test_push_of_sp :
    stepped ((at_ 0 [0x45, 0x07]).setReg 7 0xF4) (fun t => (t.sp, t.load 0xF3))
      = some (0xF3, 0xF3) := by decide
/-- V4.4. -/
theorem test_pop :
    stepped (((at_ 0 [0x46, 0x01]).setReg 7 0xF3).store 0xF3 7)
      (fun t => (t.reg 1, t.sp, t.load 0xF3)) = some (7, 0xF4, 7) := by decide
/-- V4.6. -/
theorem test_pop_into_sp :
    stepped (((at_ 0 [0x46, 0x07]).setReg 7 0xF3).store 0xF3 0x20) (fun t => t.sp) = some 0x21 := by
  decide
/-- V4.8. -/
theorem test_call_pushes_the_wrapped_return_address :
    stepped (((at_ 0xFE [0x50, 0x01]).setReg 7 0xF4).setReg 1 0x10)
      (fun t => (t.sp, t.load 0xF3, t.pc)) = some (0xF3, 0x00, 0x10) := by decide
/-- V4.9. -/
theorem test_call_through_sp :
    stepped ((at_ 0x20 [0x50, 0x07]).setReg 7 0xF4) (fun t => (t.load 0xF3, t.pc))
      = some (0x22, 0xF3) := by decide
/-- V4.11 and V4.13. -/
theorem test_ret_wraps_and_ignores_operands :
    stepped (((at_ 0x40 [0x11, 0xFF]).setReg 7 0xFF).store 0xFF 0x30) (fun t => (t.pc, t.sp))
      = some (0x30, 0x00) := by decide
/-- V4.12. -/
theorem test_push_of_an_illegal_register :
    stepped (at_ 0x40 [0x45, 0x0A]) (fun t => (ending t, t.sp))
      = some ((.faulted, some ⟨.illegalRegister, 0x40, 0x0A⟩), 0) := by decide
/-- V5.4. -/
theorem test_cmp_is_unsigned :
    stepped (((at_ 0 [0xA7, 0x00, 0x01]).setReg 0 0x80).setReg 1 0x7F) (fun t => (t.fl, t.pc))
      = some (2, 3) := by decide
/-- V5.7. -/
theorem test_cmp_clears_the_old_flags :
    stepped ((((at_ 0 [0xA7, 0x00, 0x01]).setReg 0 2).setReg 1 2).setFl 4) (fun t => t.fl)
      = some 1 := by decide
/-- V5.8. -/
theorem test_jmp :
    stepped ((at_ 0 [0x54, 0x02]).setReg 2 0x20) (fun t => t.pc) = some 0x20 := by decide
/-- V5.9. -/
theorem test_jeq_jumps :
    stepped (((at_ 0x10 [0x55, 0x03]).setReg 3 0x40).setFl 1) (fun t => t.pc) = some 0x40 := by decide
/-- V5.13. -/
theorem test_jeq_falls_through_and_wraps :
    stepped (at_ 0xFF [0x55, 0x03]) (fun t => t.pc) = some 0x01 := by decide
/-- V5.14. -/
theorem test_jne_falls_through :
    stepped (((at_ 0x10 [0x56, 0x02]).setReg 2 9).setFl 1) (fun t => t.pc) = some 0x12 := by decide
/-- V5.16. -/
theorem test_jne_jumps_on_greater :
    stepped (((at_ 0x10 [0x56, 0x02]).setReg 2 9).setFl 2) (fun t => t.pc) = some 0x09 := by decide
/-- V5.17. -/
theorem test_jeq_checks_its_register_on_either_path :
    stepped (at_ 0x10 [0x55, 0x08]) ending
      = some (.faulted, some ⟨.illegalRegister, 0x10, 0x08⟩) := by decide
/-- V1.4 and V6.2. -/
theorem test_prn :
    stepped ((at_ 0x20 [0x47, 0x00, 0xFF]).setReg 0 255) (fun t => (outputText t.out, t.pc))
      = some (['2', '5', '5'], 0x22) := by decide
/-- V6.4. -/
theorem test_pra :
    stepped ((at_ 0 [0x48, 0x00]).setReg 0 0x41) (fun t => outputText t.out) = some ['A'] := by decide
/-- V6.3. -/
theorem test_numbers_run_together : outputText [⟨.num, 7⟩, ⟨.num, 2⟩] = ['7', '2'] := by decide
/-- V7.1. -/
theorem test_nop : stepped (at_ 0x0E [0x00]) (fun t => t.pc) = some 0x0F := by decide
/-- V1.3. -/
theorem test_hlt_advances_and_wraps :
    stepped (at_ 0xFF [0x01]) (fun t => (ending t, t.pc)) = some ((.halted, none), 0) := by decide
/-- V8.1. -/
theorem test_unknown_opcode :
    stepped (at_ 0x10 [0x02]) (fun t => (ending t, t.pc))
      = some ((.faulted, some ⟨.unknownOpcode, 0x10, 0x02⟩), 0x10) := by decide
/-- R208. -/
theorem test_fault_codes :
    [FaultKind.unknownOpcode, .unimplementedOpcode, .illegalRegister].map FaultKind.code = [1, 2, 3] := by
  decide

/-- V2.23, V3.8, V5.18, V5.19, V6.7, V6.8: the byte each unimplemented opcode records. -/
theorem test_unimplemented_opcodes_record_their_byte :
    ∀ op ∈ [0x13, 0x52, 0x57, 0x58, 0x59, 0x5A, 0x69, 0x84, 0xA1, 0xA3, 0xA4, 0xA8, 0xAA, 0xAB, 0xAC, 0xAD],
      stepped (at_ 0 [op]) ending = some (.faulted, some ⟨.unimplementedOpcode, 0, op⟩) := by decide

/-! ### Memory -/

theorem test_memory_keeps_its_form :
    Memory.writeByte (Memory.writeByte (Memory.writeByte [] 9 1) 3 2) 9 0 = [(3, 2)] := by decide

/-! ### The loader -/

/-- S6 as C7 reads it: "101" is the byte 5, "xyz" a load error. -/
theorem test_loader_rejects_a_non_binary_token :
    loadProgram ['1', '0', '1', '\n', 'x', 'y', 'z'] = .error .notBinary ∧
    loadProgram ['1', '0', '1'] = .ok [5] := by decide
/-- C6: blank and comment lines are skipped. -/
theorem test_loader_skips_blank_and_comment_lines :
    loadProgram [' ', '1', '0', ' ', '#', 'x', '\n', '\n', '#', 'y', '\n', '1'] = .ok [2, 1] := by decide
/-- R154: the line `10000010 # LDI R0,8`. -/
theorem test_loader_reads_the_example_line :
    loadProgram ['1', '0', '0', '0', '0', '0', '1', '0', ' ', '#', ' ', 'L', 'D', 'I'] = .ok [0x82] := by
  decide
/-- R226. -/
theorem test_loader_rejects_values_above_255 :
    loadProgram ['1', '0', '0', '0', '0', '0', '0', '0', '0'] = .error .valueTooLarge := by decide
/-- R227. -/
theorem test_launch :
    launch [] = .usageError ∧ launch [['2']] = .loadError .notBinary ∧
    launch [['1']] = .started (State.boot [1]) ∧ (launch [['2']]).exitStatus = some .nonZero := by
  refine ⟨?_, ?_, ?_, ?_⟩ <;> rfl

/-! ### Assembler spelling -/

/-- R153's examples, and a register byte with no spelling. -/
theorem test_assembly_of_the_examples :
    (Instr.ldi 0 8).assembly = some "LDI R0,8" ∧ (Instr.mul 0 1).assembly = some "MUL R0,R1" ∧
    (Instr.prn 0).assembly = some "PRN R0" ∧ Instr.hlt.assembly = some "HLT" ∧
    (Instr.prn 8).assembly = none := by decide

/-! ### Witnesses: for each statement with hypotheses, a state and operands that meet them -/

/-- The invariant at a state that is not the reset state, with a step from it. -/
theorem witness_invariant_and_step : ∃ t, Inv (at_ 5 [0xA1]) ∧ step (at_ 5 [0xA1]) = .next t :=
  ⟨_, ⟨by decide, by decide, by simp [FaultConsistent, at_, State.reset]⟩, rfl⟩

theorem witness_run : ∃ t, Inv (at_ 5 [0xA1]) ∧ Reaches 1 (at_ 5 [0xA1]) t :=
  ⟨_, ⟨by decide, by decide, by simp [FaultConsistent, at_, State.reset]⟩, rfl⟩

theorem witness_image_lengths :
    ([] : List Byte).length ≤ 256 ∧ (List.replicate 256 (1 : Byte)).length ≤ 256 :=
  ⟨Nat.zero_le _, (List.length_replicate ..).le⟩

theorem witness_canonical_memories :
    Memory.wf [(0, 7), (255, 1)] = true ∧
      ∀ x, Memory.readByte [(0, 7), (255, 1)] x = Memory.readByte [(0, 7), (255, 1)] x :=
  ⟨by decide, fun _ => rfl⟩

theorem witness_decoded_window : decode ⟨0xA0, 9, 8⟩ = .ok (.add 9 8) := rfl

theorem witness_windows_agree_where_used :
    (⟨0x65, 3, 1⟩ : Window).op = (⟨0x65, 3, 2⟩ : Window).op ∧
      (1 ≤ operandCount 0x65 → (3 : Byte) = 3) ∧ (2 ≤ operandCount 0x65 → (1 : Byte) = 2) := by decide

/-- Also the boundary clause: with pc at 255 the two later bytes are at 0 and 1. -/
theorem witness_step_runs_decoded :
    (at_ 0xFF [0xA0, 0, 1]).runState = .running ∧
      decode (fetch (at_ 0xFF [0xA0, 0, 1])) = .ok (.add 0 1) ∧
      (0 : Byte).toNat = ((at_ 0xFF [0xA0, 0, 1]).pc.toNat + 1) % 256 ∧
      (1 : Byte).toNat = ((at_ 0xFF [0xA0, 0, 1]).pc.toNat + 2) % 256 := ⟨rfl, rfl, rfl, rfl⟩

theorem witness_unknown_opcode :
    (at_ 5 [0xC0]).runState = .running ∧ dispatchEntry ((at_ 5 [0xC0]).load 5) = none := ⟨rfl, rfl⟩

/-- One state for each clause of the fault order. -/
theorem witness_fault_order :
    opcodeStatus (fetch (at_ 0 [0x02])).op = .unknown ∧
      opcodeStatus (fetch (at_ 0 [0xA1])).op = .unimplemented ∧
      opcodeStatus (fetch (at_ 0 [0xA0, 7, 8])).op = .implemented ∧
      (Instr.add 7 8).registerOperands.find? (fun x => decide (8 ≤ x.toNat)) = some 8 ∧
      (∀ r ∈ (Instr.add 7 7).registerOperands, r.toNat < 8) := by decide

theorem witness_faulting_step :
    ∃ t, (at_ 5 [0xA1]).runState = .running ∧ step (at_ 5 [0xA1]) = .next t ∧ t.runState = .faulted :=
  ⟨_, rfl, rfl, rfl⟩

/-- A faulting step for each of the three causes. -/
theorem witness_fault_codes :
    (∃ t, (at_ 5 [0x02]).runState = .running ∧ step (at_ 5 [0x02]) = .next t ∧ t.runState = .faulted ∧
      opcodeStatus ((at_ 5 [0x02]).load 5) = .unknown) ∧
    (∃ t, (at_ 5 [0xA1]).runState = .running ∧ step (at_ 5 [0xA1]) = .next t ∧ t.runState = .faulted ∧
      opcodeStatus ((at_ 5 [0xA1]).load 5) = .unimplemented) ∧
    (∃ t, (at_ 5 [0xA0, 8]).runState = .running ∧ step (at_ 5 [0xA0, 8]) = .next t ∧ t.runState = .faulted ∧
      opcodeStatus ((at_ 5 [0xA0, 8]).load 5) = .implemented) :=
  ⟨⟨_, rfl, rfl, rfl, by decide⟩, ⟨_, rfl, rfl, rfl, by decide⟩, ⟨_, rfl, rfl, rfl, by decide⟩⟩

theorem witness_halting_step :
    ∃ t, (at_ 5 [0x01]).runState = .running ∧ step (at_ 5 [0x01]) = .next t ∧ t.runState = .halted :=
  ⟨_, rfl, rfl, rfl⟩

theorem witness_stopped_states :
    State.reset.halt.runState = .halted ∧
      (State.reset.takeFault ⟨.unknownOpcode, 2⟩).runState = .faulted := ⟨rfl, rfl⟩

theorem witness_frames :
    (∃ t, exec .nop State.reset = .next t) ∧ ¬isCompare .nop ∧ ¬storesToMemory .nop ∧
      ¬mayWrite .nop 0 ∧ setsPc (Instr.opcode .nop) = false :=
  ⟨⟨_, rfl⟩, id, id, id, rfl⟩

theorem witness_storing_frame :
    (∃ t, exec (.push 0) State.reset = .next t) ∧ storesToMemory (.push 0) ∧
      (0 : Byte) ≠ State.reset.pushAddress := ⟨⟨_, rfl⟩, trivial, by decide⟩

theorem witness_states_that_differ_in_greater_and_less :
    ∃ t, AgreeButGreaterLess (State.reset.setFl 2) (State.reset.setFl 4) ∧
      Reaches 1 (State.reset.setFl 2) t := ⟨_, ⟨rfl, by decide⟩, rfl⟩

theorem witness_step_beside_another_port : ∃ t, step (at_ 0 [0x47, 0]) = .next t := ⟨_, rfl⟩

theorem witness_illegal_bytes :
    8 ≤ (8 : Byte).toNat ∧ 8 ≤ (255 : Byte).toNat ∧ (7 : Byte).toNat < 8 := by decide

theorem witness_round_trip_registers :
    (0 : Reg) ≠ 7 ∧ (6 : Reg) ≠ 7 ∧ (7 : Reg) = 7 := by decide

theorem witness_return_after_call :
    ∃ t, (1 : Reg) ≠ 7 ∧ exec (.call (registerByte 1)) State.reset = .next t ∧ t.sp = t.sp ∧
      t.load t.sp = t.load t.sp := ⟨_, by decide, rfl, rfl, rfl⟩

/-- SP such that the byte pushed is the next opcode byte, operand-A or operand-B, and a CALL that
jumps to the byte it pushed. -/
theorem witness_push_over_the_next_window :
    (∃ t, exec (.push (registerByte 0)) (State.reset.setReg 7 3) = .next t ∧
      t.pc = (State.reset.setReg 7 3).pushAddress) ∧
    (∃ t, exec (.push (registerByte 0)) (State.reset.setReg 7 4) = .next t ∧
      t.pc + 1 = (State.reset.setReg 7 4).pushAddress) ∧
    (∃ t, exec (.push (registerByte 7)) (State.reset.setReg 7 5) = .next t ∧
      t.pc + 2 = (State.reset.setReg 7 5).pushAddress) ∧
    (∃ t, exec (.call (registerByte 7)) State.reset = .next t ∧ t.pc = State.reset.pushAddress) :=
  ⟨⟨_, rfl, rfl⟩, ⟨_, rfl, rfl⟩, ⟨_, rfl, rfl⟩, ⟨_, rfl, rfl⟩⟩

/-- Equal, greater by one, less by one, at the ends of the range. -/
theorem witness_comparisons :
    (255 : Byte).toNat = (255 : Byte).toNat ∧ (255 : Byte).toNat > (254 : Byte).toNat ∧
      (0 : Byte).toNat < (1 : Byte).toNat := by decide

theorem witness_equal_flag :
    (State.reset.setFl 1).fl.getLsbD 0 = true ∧ (State.reset.setFl 6).fl.getLsbD 0 = false := by decide

theorem witness_number_text_zero : (decimalText 0).head? = some '0' := by decide

theorem witness_program_lines :
    (∀ l ∈ [((1 : Byte), ['x'])], '\n' ∉ l.2) ∧ [((1 : Byte), ['x'])].length ≤ 256 ∧
      (∀ l ∈ List.replicate 257 ((1 : Byte), ([] : List Char)), '\n' ∉ l.2) ∧
      256 < (List.replicate 257 ((1 : Byte), ([] : List Char))).length := by
  refine ⟨by decide, by decide, fun l hl => ?_, by rw [List.length_replicate]; decide⟩
  rw [List.eq_of_mem_replicate hl]
  simp

end Sys2Proof.Tests
end

/-! The register frame: which registers an instruction can write (spec 10_state.md R113). The idea:
a fault keeps every register, the advance writes only pc, so the frame is that of the handler. -/

namespace Sys2Proof.Machine

open Sys2Proof.Claims

/-! ### Registers under the operations the handlers are made of -/

@[simp] theorem State.reg_jumpWhen (taken : Bool) (s : State) (target : Byte) (q : Reg) :
    (jumpWhen taken s target).reg q = s.reg q :=
  State.reg_setPc s q _

/-- A push writes no register but SP. -/
theorem State.reg_openSlot_storeTop_of_ne (s : State) (v : Byte) {q : Reg}
    (hq : q ≠ Config.stackPointer) : (s.openSlot.storeTop v).reg q = s.reg q := by
  rw [State.openSlot_storeTop, State.reg_store, State.reg_setReg, if_neg hq]

/-- The second half of a pop writes no register but SP. -/
theorem State.reg_closeSlot_of_ne (s : State) {q : Reg} (hq : q ≠ Config.stackPointer) :
    s.closeSlot.reg q = s.reg q := by
  rw [State.reg_closeSlot, if_neg hq]

/-- A write to the register a byte names keeps every register it does not name. -/
theorem State.reg_setReg_of_byte_ne (s : State) (v : Byte) {r q : Reg}
    (hq : registerByte r ≠ registerByte q) : (s.setReg r v).reg q = s.reg q := by
  have hne : q ≠ r := fun e => hq (e ▸ rfl)
  rw [State.reg_setReg, if_neg hne]

/-! ### Registers under a handler with register operands -/

/-- A one-register handler keeps `x[q]` when it does so for the register its byte names. -/
theorem withReg_keeps_reg {a : Byte} {f : Reg → State} {s u : State} {q : Reg}
    (h : withReg a f = .ok u) (hf : ∀ r, a = registerByte r → (f r).reg q = s.reg q) :
    u.reg q = s.reg q := by
  obtain ⟨r, ha, rfl⟩ := withReg_eq_ok h
  exact hf r ha

/-- A two-register handler keeps `x[q]` when it does so for the registers its bytes name. -/
theorem withReg2_keeps_reg {a b : Byte} {f : Reg → Reg → State} {s u : State} {q : Reg}
    (h : withReg2 a b f = .ok u)
    (hf : ∀ ra rb, a = registerByte ra → (f ra rb).reg q = s.reg q) : u.reg q = s.reg q := by
  obtain ⟨ra, rb, ha, -, rfl⟩ := withReg2_eq_ok h
  exact hf ra rb ha

/-- A one-register handler that writes its register keeps every other one. -/
theorem withReg_setReg_keeps_reg {a : Byte} {v : Reg → Byte} {s u : State} {q : Reg}
    (h : withReg a (fun r => s.setReg r (v r)) = .ok u) (hq : a ≠ registerByte q) :
    u.reg q = s.reg q :=
  withReg_keeps_reg h fun _ ha => s.reg_setReg_of_byte_ne _ (ha ▸ hq)

/-- A two-register handler that writes operand-A's register keeps every other one. -/
theorem withReg2_setReg_keeps_reg {a b : Byte} {v : Reg → Reg → Byte} {s u : State} {q : Reg}
    (h : withReg2 a b (fun ra rb => s.setReg ra (v ra rb)) = .ok u) (hq : a ≠ registerByte q) :
    u.reg q = s.reg q :=
  withReg2_keeps_reg h fun _ _ ha => s.reg_setReg_of_byte_ne _ (ha ▸ hq)

/-! ### The frame of every handler, then of every instruction -/

/-- A handler that completes writes only the registers R113 lists for its instruction. -/
theorem handled_keeps_reg {i : Instr} {s u : State} {q : Reg} (h : handled i s = .ok u)
    (hq : ¬mayWrite i q) : u.reg q = s.reg q := by
  cases i with
  | nop | hlt => cases h; rfl
  | ret => cases h; exact State.reg_closeSlot_of_ne _ hq
  | push a => exact withReg_keeps_reg h fun _ _ => s.reg_openSlot_storeTop_of_ne _ hq
  | call a =>
    refine withReg_keeps_reg h fun r _ => ?_
    rw [State.reg_setPc, State.reg_openSlot_storeTop_of_ne _ _ hq]
  | pop a =>
    obtain ⟨hbyte, hsp⟩ := not_or.1 hq
    refine withReg_keeps_reg h fun r ha => ?_
    rw [State.reg_closeSlot_of_ne _ hsp, State.reg_setReg_of_byte_ne _ _ (ha ▸ hbyte)]
  | prn a | pra a => exact withReg_keeps_reg h fun _ _ => s.reg_output q _ _
  | jmp a => exact withReg_keeps_reg h fun _ _ => s.reg_setPc q _
  | jeq a | jne a => exact withReg_keeps_reg h fun _ _ => s.reg_jumpWhen _ _ q
  | cmp a b => exact withReg2_keeps_reg h fun _ _ _ => s.reg_setFl q _
  | inc a | dec a | ldi a b => exact withReg_setReg_keeps_reg h hq
  | ld a b | add a b | mul a b => exact withReg2_setReg_keeps_reg h hq
  -- The placeholders raise, so none of them completes (R210).
  | iret | int | jgt | jlt | jle | jge | not | st | sub | div | mod | and | or | xor | shl | shr =>
    cases h

/-- Settles O23: a completed handler writes only the listed registers, and a fault none. -/
theorem registersWrittenAreTheListedOnes : Obligations.RegistersWrittenAreTheListedOnes := by
  intro i s t h q hq
  rcases exec_next h with ⟨u, hu, rfl⟩ | ⟨r, -, rfl⟩
  · rw [reg_advance, handled_keeps_reg hu hq]
  · exact s.reg_takeFault q r

end Sys2Proof.Machine

/-! ## The decoder and the opcode map (spec 30_encoding.md) -/

namespace Sys2Proof.Machine

open Sys2Proof.Claims

/-! ### Operand bytes past the operand count -/

/-- The decoder undoes the encoder. -/
theorem decode_windowOf_encode (i : Instr) : decode (windowOf (encode i)) = .ok i := by
  cases i <;> rfl

/-- An instruction is fixed by its opcode byte and its operand bytes. -/
theorem instr_eq_of_opcode_of_operands {i j : Instr} (hop : i.opcode = j.opcode)
    (hargs : i.operands = j.operands) : i = j := by
  have henc : encode i = encode j := by rw [encode, encode, hop, hargs]
  have hdec : (.ok i : Except DecodeError Instr) = .ok j := by
    rw [← decode_windowOf_encode i, henc, decode_windowOf_encode]
  exact Except.ok.inj hdec

/-- A byte with a table entry decodes to the instruction of that entry. -/
theorem decode_of_entry {w : Window} {row : DispatchRow} (h : dispatchEntry w.op = some row) :
    decode w = .ok (row.instr w.a w.b) := by
  simp [decode, h]

/-- The first `n` of two operand bytes depend only on the bytes that `n` reaches. -/
theorem take_operands_congr {a b a' b' : Byte} (n : Nat) (ha : 1 ≤ n → a = a')
    (hb : 2 ≤ n → b = b') : [a, b].take n = [a', b'].take n := by
  match n with
  | 0 => rfl
  | 1 => simp [ha]
  | n + 2 => simp [ha, hb]

/-- Settles O9: by its length an instruction holds only the operand bytes counted in its opcode byte. -/
theorem unusedOperandBytesAreIgnored : Obligations.UnusedOperandBytesAreIgnored := by
  intro w w' hop ha hb
  cases hrow : dispatchEntry w.op with
  | none => rw [decode_of_unknown hrow, decode_of_unknown (hop ▸ hrow), hop]
  | some row =>
    have h := decode_of_entry hrow
    have h' := decode_of_entry (w := w') (hop ▸ hrow)
    obtain ⟨hi, hargs⟩ := decode_ok h
    obtain ⟨hi', hargs'⟩ := decode_ok h'
    have hinstr : row.instr w.a w.b = row.instr w'.a w'.b :=
      instr_eq_of_opcode_of_operands (by rw [hi, hi', hop])
        (by rw [hargs, hargs', ← hop, take_operands_congr _ ha hb])
    rw [h, h', hinstr]

/-! ### Counting the opcode bytes -/

/-- The status of a row's opcode byte is the one the row holds. -/
theorem opcodeStatus_of_mem : ∀ row ∈ dispatchTable, opcodeStatus row.opcode = row.status := by
  decide

/-- No opcode byte has two rows. -/
theorem dispatchTable_opcodes_nodup : (dispatchTable.map (·.opcode.toNat)).Nodup := by
  decide

/-- A byte has a status other than unknown just when a row of the table gives it. -/
theorem opcodeStatus_eq_iff {op : Byte} {st : OpcodeStatus} (hst : st ≠ .unknown) :
    opcodeStatus op = st ↔ ∃ row ∈ dispatchTable, row.status = st ∧ row.opcode = op := by
  constructor
  · intro h
    cases hrow : dispatchEntry op with
    | none => simp [opcodeStatus, hrow, hst.symm] at h
    | some row =>
      obtain ⟨hmem, hop⟩ := dispatchEntry_some hrow
      exact ⟨row, hmem, (opcodeStatus_of_mem row hmem).symm.trans (hop ▸ h), hop⟩
  · rintro ⟨row, hmem, rfl, rfl⟩
    exact opcodeStatus_of_mem row hmem

/-- The bytes of a status other than unknown are as many as the rows of the table that have it. -/
theorem opcodesWith_eq_rows {st : OpcodeStatus} (hst : st ≠ .unknown) :
    opcodesWith st = (dispatchTable.filter (·.status == st)).length := by
  have hperm : ((List.range 256).filter fun n => opcodeStatus (BitVec.ofNat 8 n) == st).Perm
      ((dispatchTable.filter (·.status == st)).map (·.opcode.toNat)) := by
    refine (List.perm_ext_iff_of_nodup (List.nodup_range.filter _)
      (dispatchTable_opcodes_nodup.sublist (List.filter_sublist.map _))).2 fun n => ?_
    simp only [List.mem_filter, List.mem_range, List.mem_map, beq_iff_eq,
      opcodeStatus_eq_iff hst, and_assoc]
    constructor
    · rintro ⟨hn, row, hmem, hrow, hop⟩
      exact ⟨row, hmem, hrow, by rw [hop, BitVec.toNat_ofNat, Nat.mod_eq_of_lt hn]⟩
    · rintro ⟨row, hmem, hrow, rfl⟩
      exact ⟨row.opcode.isLt, row, hmem, hrow, by simp⟩
  rw [opcodesWith, hperm.length_eq, List.length_map]

/-- The three statuses part the elements of a list. -/
theorem length_filter_statuses {α : Type} (f : α → OpcodeStatus) (l : List α) :
    (l.filter (f · == .implemented)).length + (l.filter (f · == .unimplemented)).length +
      (l.filter (f · == .unknown)).length = l.length := by
  induction l with
  | nil => rfl
  | cons x xs ih => cases hx : f x <;> simp [hx] <;> omega

/-- Settles O11: the table's rows are counted, and the bytes without a row are the rest of the 256. -/
theorem opcodeBytesAreOfThreeKinds : Obligations.OpcodeBytesAreOfThreeKinds := by
  have himpl : opcodesWith .implemented = 18 := (opcodesWith_eq_rows (by decide)).trans rfl
  have hunimpl : opcodesWith .unimplemented = 16 := (opcodesWith_eq_rows (by decide)).trans rfl
  have hall : opcodesWith .implemented + opcodesWith .unimplemented + opcodesWith .unknown = 256 := by
    unfold opcodesWith
    rw [length_filter_statuses fun n => opcodeStatus (BitVec.ofNat 8 n), List.length_range]
  exact ⟨himpl, hunimpl, by omega⟩

end Sys2Proof.Machine

/-! ## The cycle (spec 40_cycle.md)

What a step can do is said once (`step_next`): only a RUNNING core steps, and its step takes a fault
or advances the state of the decoded instruction's handler. The statements follow from what a
handler that completes does to the run state and to pc. -/

namespace Sys2Proof.Machine

open Sys2Proof.Claims

/-! ### Handlers that complete -/

/-- What holds of all that a one-register handler writes holds of its answer. -/
theorem withReg_ok_of_forall {P : State → Prop} {a : Byte} {f : Reg → State} {u : State}
    (h : withReg a f = .ok u) (hf : ∀ r, P (f r)) : P u := by
  obtain ⟨r, -, rfl⟩ := withReg_eq_ok h
  exact hf r

/-- What holds of all that a two-register handler writes holds of its answer. -/
theorem withReg2_ok_of_forall {P : State → Prop} {a b : Byte} {f : Reg → Reg → State} {u : State}
    (h : withReg2 a b f = .ok u) (hf : ∀ ra rb, P (f ra rb)) : P u := by
  obtain ⟨ra, rb, -, -, rfl⟩ := withReg2_eq_ok h
  exact hf ra rb

/-- A handler that completes leaves the run state as it is, HLT's excepted (R118). -/
theorem handled_keeps_runState {i : Instr} {s u : State} (h : handled i s = .ok u)
    (hi : i ≠ .hlt) : u.runState = s.runState := by
  cases i with
  | hlt => exact absurd rfl hi
  | nop | ret => cases h; rfl
  | push | pop | prn | pra | call | jmp | jeq | jne | inc | dec | ldi =>
    exact withReg_ok_of_forall (P := (·.runState = s.runState)) h fun _ => rfl
  | ld | add | mul | cmp =>
    exact withReg2_ok_of_forall (P := (·.runState = s.runState)) h fun _ _ => rfl
  -- The placeholders raise, so none of them completes (R210).
  | iret | int | jgt | jlt | jle | jge | not | st | sub | div | mod | and | or | xor | shl | shr =>
    cases h

/-- No handler writes FAULTED: only the taking of a fault does. -/
theorem handled_runState_ne_faulted {i : Instr} {s u : State} (h : handled i s = .ok u)
    (hs : s.runState ≠ .faulted) : u.runState ≠ .faulted := by
  by_cases hi : i = .hlt
  · subst hi; cases h; simp
  · rwa [handled_keeps_runState h hi]

/-- A handler whose opcode has `sets_pc` 0 leaves pc to the default advance (R161). -/
theorem handled_keeps_pc {i : Instr} {s u : State} (h : handled i s = .ok u)
    (hpc : setsPc i.opcode = false) : u.pc = s.pc := by
  cases i with
  | nop | hlt => cases h; rfl
  | push | pop | prn | pra | inc | dec | ldi =>
    exact withReg_ok_of_forall (P := (·.pc = s.pc)) h fun _ => rfl
  | ld | add | mul | cmp =>
    exact withReg2_ok_of_forall (P := (·.pc = s.pc)) h fun _ _ => rfl
  -- These opcodes have `sets_pc` 1.
  | ret | call | jmp | jeq | jne => simp [setsPc, Instr.opcode] at hpc
  -- The placeholders raise, so none of them completes (R210).
  | iret | int | jgt | jlt | jle | jge | not | st | sub | div | mod | and | or | xor | shl | shr =>
    cases h

/-! ### Faults and the default advance -/

/-- Taking a fault is what the claims call a fault taken (R163). -/
theorem faultTaken_takeFault (s : State) (r : Raise) :
    FaultTaken s r.kind r.byte (s.takeFault r) := by
  simp [FaultTaken]

/-- The default advance goes on by the instruction's length, modulo 256 (R161). -/
theorem pcMoved_advance {i : Instr} {s u : State} (hu : u.pc = s.pc)
    (hpc : setsPc i.opcode = false) : PcMoved (1 + operandCount i.opcode) s (advance i u) := by
  simp [PcMoved, advance_pc, hpc, hu, instrLength, BitVec.toNat_add]

/-! ### What a step can do -/

/-- Every instruction answers a next state, from every state (R166). -/
theorem exec_answers_next (i : Instr) (s : State) : ∃ t, exec i s = .next t := by
  cases h : handled i s with
  | ok u => exact ⟨_, exec_of_handled_ok h⟩
  | error r => exact ⟨_, exec_of_handled_error h⟩

/-- A RUNNING core at a byte without a table entry takes UnknownOpcode (R157). -/
theorem step_of_unknown {s : State} (hrun : s.runState = .running)
    (h : dispatchEntry (s.load s.pc) = none) :
    step s = .next (s.takeFault ⟨.unknownOpcode, s.load s.pc⟩) := by
  have hdec : decode (fetch s) = .error (.unknownOpcode (s.load s.pc)) := decode_of_unknown h
  simp [step, hrun, hdec]

/-- A RUNNING core at a window that decodes executes the instruction (R164). -/
theorem step_of_decoded {s : State} {i : Instr} (hrun : s.runState = .running)
    (h : decode (fetch s) = .ok i) : step s = exec i s := by
  simp [step, hrun, h]

/-- A RUNNING core is at a byte without a table entry or at a window that decodes. -/
theorem step_of_running {s : State} (hrun : s.runState = .running) :
    (dispatchEntry (s.load s.pc) = none ∧
        step s = .next (s.takeFault ⟨.unknownOpcode, s.load s.pc⟩)) ∨
      ∃ i, decode (fetch s) = .ok i ∧ step s = exec i s := by
  cases hrow : dispatchEntry (s.load s.pc) with
  | none => exact .inl ⟨rfl, step_of_unknown hrun hrow⟩
  | some row =>
    have hdec := decode_of_entry (w := fetch s) hrow
    exact .inr ⟨_, hdec, step_of_decoded hrun hdec⟩

/-- Only a RUNNING core has a next state (R119). -/
theorem running_of_step_next {s t : State} (h : step s = .next t) : s.runState = .running := by
  cases hs : s.runState with
  | running => rfl
  | halted | faulted => simp [step, hs] at h

/-- A step takes a fault, or it advances the state of the decoded instruction's handler. -/
theorem step_next {s t : State} (h : step s = .next t) :
    (∃ r, t = s.takeFault r) ∨
      ∃ i u, decode (fetch s) = .ok i ∧ handled i s = .ok u ∧ t = advance i u := by
  rcases step_of_running (running_of_step_next h) with ⟨-, hstep⟩ | ⟨i, hdec, hstep⟩
  · rw [hstep] at h; cases h; exact .inl ⟨_, rfl⟩
  · rcases exec_next (hstep ▸ h) with ⟨u, hu, ht⟩ | ⟨r, -, ht⟩
    · exact .inr ⟨i, u, hdec, hu, ht⟩
    · exact .inl ⟨r, ht⟩

/-! ### The statements -/

/-- Settles O14: the decoder rejects the byte, and the step takes the fault. -/
theorem unknownOpcodeRaisesItsFault : Obligations.UnknownOpcodeRaisesItsFault :=
  fun s hrun hop => ⟨_, step_of_unknown hrun hop, faultTaken_takeFault s _⟩

/-- Settles O16: no handler writes FAULTED, so the step to a FAULTED state took a fault. -/
theorem faultsArePrecise : Obligations.FaultsArePrecise := by
  intro s t hrun hstep hfaulted
  rcases step_next hstep with ⟨r, rfl⟩ | ⟨i, u, -, hu, rfl⟩
  · exact ⟨_, _, faultTaken_takeFault s r⟩
  · have hne := handled_runState_ne_faulted hu (by simp [hrun])
    exact absurd (advance_runState i u ▸ hfaulted) hne

/-- Settles O17: a RUNNING core takes a fault or executes, and either answers a next state. -/
theorem runningCoreTakesItsNextStep : Obligations.RunningCoreTakesItsNextStep := by
  refine fun s => ⟨fun ⟨_, h⟩ => running_of_step_next h, fun hrun => ?_⟩
  rcases step_of_running hrun with ⟨-, hstep⟩ | ⟨i, -, hstep⟩
  · exact ⟨_, hstep⟩
  · exact hstep ▸ exec_answers_next i s

/-- Settles O26: with `sets_pc` 0 the handler keeps pc, and the advance alone moves it. -/
theorem defaultAdvanceIsTheLength : Obligations.DefaultAdvanceIsTheLength := by
  intro i s t h hpc
  rcases exec_next h with ⟨u, hu, rfl⟩ | ⟨r, -, rfl⟩
  · exact .inl (pcMoved_advance (handled_keeps_pc hu hpc) hpc)
  · exact .inr ⟨_, _, faultTaken_takeFault s r⟩

end Sys2Proof.Machine

/-! ## The ALU instructions (spec 41_alu.md)

Each statement has the encoding, the faults and, for an implemented opcode, the effect. All three are
read off what the encoder and the handler answer (`encode`, `handled`); the lemmas here turn such an
answer into the claim. -/

namespace Sys2Proof.Machine

open Sys2Proof.Claims

/-! ### The encoding clauses -/

/-- The bytes of an instruction decode to it. -/
theorem decode_windowOf_of_encode {i : Instr} {bytes : List Byte} (h : encode i = bytes) :
    decode (windowOf bytes) = .ok i :=
  h ▸ decode_windowOf_encode i

/-- A three-byte instruction is given by its bytes. -/
theorem encoded3_of_encode {op : Byte} {i : Byte → Byte → Instr}
    (h : ∀ a b, encode (i a b) = [op, a, b]) : Encoded3 op i :=
  fun a b => ⟨h a b, decode_windowOf_of_encode (h a b)⟩

/-- A two-byte instruction is given by its bytes: the third byte fetched is not one of them (R145). -/
theorem encoded2_of_encode {op : Byte} {i : Byte → Instr} (h : ∀ a, encode (i a) = [op, a])
    (hcount : operandCount op = 1) : Encoded2 op i := by
  refine fun a => ⟨h a, fun y => ?_⟩
  have hthird : decode ⟨op, a, y⟩ = decode ⟨op, a, 0⟩ :=
    unusedOperandBytesAreIgnored _ _ rfl (fun _ => rfl) fun h2 : 2 ≤ operandCount op => by omega
  exact hthird.trans (decode_windowOf_of_encode (h a))

/-! ### The fault clauses -/

/-- An instruction raises the fault its handler raises (R163). -/
theorem raises_of_handled_error {i : Instr} {s : State} {k : FaultKind} {b : Byte}
    (h : handled i s = .error ⟨k, b⟩) : Raises i s k b :=
  ⟨_, exec_of_handled_error h, faultTaken_takeFault s ⟨k, b⟩⟩

/-- A one-register handler checks its operand. -/
theorem checksA_of_handled {i : Byte → Instr} {f : State → Reg → State}
    (h : ∀ s a, handled (i a) s = withReg a (f s)) : ChecksA i :=
  fun s a ha => raises_of_handled_error ((h s a).trans (withReg_of_illegal ha _))

/-- A two-register handler checks both operands, operand-A first (R214). -/
theorem checksAB_of_handled {i : Byte → Byte → Instr} {f : State → Reg → Reg → State}
    (h : ∀ s a b, handled (i a b) s = withReg2 a b (f s)) : ChecksAB i := by
  refine fun s a b => ⟨fun ha => ?_, fun ha hb => ?_⟩
  · exact raises_of_handled_error ((h s a b).trans (withReg2_of_illegalA ha b _))
  · rw [eq_registerByte_of_lt ha]
    exact raises_of_handled_error ((h s _ b).trans (withReg2_of_illegalB _ hb _))

/-- A placeholder, which raises whatever the state, is always unimplemented (R210). -/
theorem alwaysUnimplemented_of_handled {op : Byte} {i : Instr}
    (h : ∀ s, handled i s = .error ⟨.unimplementedOpcode, op⟩) : AlwaysUnimplemented op i :=
  fun s => raises_of_handled_error (h s)

/-! ### The effect of a handler that writes one register -/

/-- A register write followed by the advance changes nothing but that register and pc. -/
theorem onlyRegisters_advance_setReg (i : Instr) (s : State) (r : Reg) (v : Byte) :
    OnlyRegisters [r] s (advance i (s.setReg r v)) := by
  refine ⟨fun q hq => ?_, by simp⟩
  have hne : q ≠ r := by simpa using hq
  rw [reg_advance, State.reg_setReg, if_neg hne]

/-- An instruction whose handler writes the one register `r` leaves it there, pc moved by the default
advance and all else as before. -/
theorem exec_of_handled_setReg {i : Instr} {s : State} {r : Reg} {v : Byte} (op : Byte)
    (h : handled i s = .ok (s.setReg r v)) (hop : i.opcode = op) (hpc : setsPc op = false) :
    ∃ t, exec i s = .next t ∧ t.reg r = v ∧ PcMoved (instrLength op) s t ∧ OnlyRegisters [r] s t := by
  subst hop
  exact ⟨_, exec_of_handled_ok h, by simp, pcMoved_advance rfl hpc,
    onlyRegisters_advance_setReg i s r v⟩

/-! ### Subtraction on bytes -/

/-- Subtracting the byte 1 is subtracting 1 from the integer, modulo 256: 0 becomes 255 (R170). -/
theorem toNat_sub_one_eq_emod (v : Byte) : ((v - 1).toNat : Int) = (v.toNat - 1 : Int) % 256 := by
  have h : (v - 1).toNat = (255 + v.toNat) % 256 := BitVec.toNat_sub v 1
  omega

/-! ### The statements -/

/-- Settles O29: the handler writes the sum of two bytes, which is modulo 256. -/
theorem addIsTheSumModulo256 : Obligations.AddIsTheSumModulo256 := by
  refine ⟨encoded3_of_encode fun _ _ => rfl, checksAB_of_handled fun _ _ _ => rfl, fun s ra rb => ?_⟩
  have hsum : handled (.add (registerByte ra) (registerByte rb)) s =
      .ok (s.setReg ra (s.reg ra + s.reg rb)) := withReg2_registerByte ra rb _
  obtain ⟨t, hexec, hreg, hpc, hframe⟩ := exec_of_handled_setReg 0xA0 hsum rfl (by decide)
  exact ⟨t, hexec, hreg ▸ BitVec.toNat_add _ _, hpc, hframe⟩

/-- Settles O30: the handler writes the product of two bytes, which is modulo 256. -/
theorem mulIsTheProductModulo256 : Obligations.MulIsTheProductModulo256 := by
  refine ⟨encoded3_of_encode fun _ _ => rfl, checksAB_of_handled fun _ _ _ => rfl, fun s ra rb => ?_⟩
  have hproduct : handled (.mul (registerByte ra) (registerByte rb)) s =
      .ok (s.setReg ra (s.reg ra * s.reg rb)) := withReg2_registerByte ra rb _
  obtain ⟨t, hexec, hreg, hpc, hframe⟩ := exec_of_handled_setReg 0xA2 hproduct rfl (by decide)
  exact ⟨t, hexec, hreg ▸ BitVec.toNat_mul _ _, hpc, hframe⟩

/-- Settles O31: the handler adds the byte 1, so 255 becomes 0. -/
theorem incAddsOneModulo256 : Obligations.IncAddsOneModulo256 := by
  refine ⟨encoded2_of_encode (fun _ => rfl) rfl, checksA_of_handled fun _ _ => rfl, fun s ra => ?_⟩
  have hinc : handled (.inc (registerByte ra)) s = .ok (s.setReg ra (s.reg ra + 1)) :=
    withReg_registerByte ra _
  obtain ⟨t, hexec, hreg, hpc, hframe⟩ := exec_of_handled_setReg 0x65 hinc rfl (by decide)
  exact ⟨t, hexec, hreg ▸ BitVec.toNat_add _ _, hpc, hframe⟩

/-- Settles O32: the handler subtracts the byte 1, so 0 becomes 255. -/
theorem decSubtractsOneModulo256 : Obligations.DecSubtractsOneModulo256 := by
  refine ⟨encoded2_of_encode (fun _ => rfl) rfl, checksA_of_handled fun _ _ => rfl, fun s ra => ?_⟩
  have hdec : handled (.dec (registerByte ra)) s = .ok (s.setReg ra (s.reg ra - 1)) :=
    withReg_registerByte ra _
  obtain ⟨t, hexec, hreg, hpc, hframe⟩ := exec_of_handled_setReg 0x66 hdec rfl (by decide)
  exact ⟨t, hexec, hreg ▸ toNat_sub_one_eq_emod _, hpc, hframe⟩

/-- Settles O33: each of the nine handlers is the placeholder, which looks at no operand. -/
theorem unimplementedAluOpcodesFault : Obligations.UnimplementedAluOpcodesFault := by
  refine ⟨encoded3_of_encode ?_, fun _ _ => alwaysUnimplemented_of_handled ?_,
    encoded3_of_encode ?_, fun _ _ => alwaysUnimplemented_of_handled ?_,
    encoded3_of_encode ?_, fun _ _ => alwaysUnimplemented_of_handled ?_,
    encoded3_of_encode ?_, fun _ _ => alwaysUnimplemented_of_handled ?_,
    encoded3_of_encode ?_, fun _ _ => alwaysUnimplemented_of_handled ?_,
    encoded3_of_encode ?_, fun _ _ => alwaysUnimplemented_of_handled ?_,
    encoded2_of_encode ?_ rfl, fun _ => alwaysUnimplemented_of_handled ?_,
    encoded3_of_encode ?_, fun _ _ => alwaysUnimplemented_of_handled ?_,
    encoded3_of_encode ?_, fun _ _ => alwaysUnimplemented_of_handled ?_⟩
  all_goals intros; rfl

end Sys2Proof.Machine

/-! ## Immediate and memory instructions (spec 42_load_store.md)

First the memory frame of every instruction: a fault and the advance store nothing, so it is that of
the handler. Then LDI, LD and the opcodes without a meaning, each from what its handler answers. -/

namespace Sys2Proof.Machine

open Sys2Proof.Claims

/-! ### Memory under the stack halves -/

/-- A push stores to the push address and to no other. -/
theorem State.load_openSlot_storeTop_of_ne (s : State) (v : Byte) {x : Byte}
    (hx : x ≠ s.pushAddress) : (s.openSlot.storeTop v).load x = s.load x := by
  rw [State.openSlot_storeTop, State.load_store, if_neg hx, State.load_setReg]

/-- The second half of a pop stores nothing. -/
@[simp] theorem State.load_closeSlot (s : State) (x : Byte) : s.closeSlot.load x = s.load x :=
  State.load_setReg s x _ _

/-! ### The memory frame of every handler, then of every instruction -/

/-- A handler that completes keeps every byte of memory, but for the one a storing instruction
pushes (R127). -/
theorem handled_keeps_load {i : Instr} {s u : State} {x : Byte} (h : handled i s = .ok u)
    (hx : storesToMemory i → x ≠ s.pushAddress) : u.load x = s.load x := by
  cases i with
  | nop | hlt => cases h; rfl
  | ret => cases h; rw [State.load_closeSlot, State.load_setPc]
  | push a =>
    exact withReg_ok_of_forall (P := (·.load x = s.load x)) h fun _ =>
      s.load_openSlot_storeTop_of_ne _ (hx trivial)
  | call a =>
    refine withReg_ok_of_forall (P := (·.load x = s.load x)) h fun _ => ?_
    rw [State.load_setPc, State.load_openSlot_storeTop_of_ne _ _ (hx trivial)]
  | pop a =>
    refine withReg_ok_of_forall (P := (·.load x = s.load x)) h fun _ => ?_
    rw [State.load_closeSlot, State.load_setReg]
  | prn | pra | jmp | jeq | jne | inc | dec | ldi =>
    exact withReg_ok_of_forall (P := (·.load x = s.load x)) h fun _ => rfl
  | ld | add | mul | cmp =>
    exact withReg2_ok_of_forall (P := (·.load x = s.load x)) h fun _ _ => rfl
  -- The placeholders raise, so none of them completes (R210).
  | iret | int | jgt | jlt | jle | jge | not | st | sub | div | mod | and | or | xor | shl | shr =>
    cases h

/-- An instruction keeps the bytes of memory that its handler keeps. -/
theorem exec_keeps_load {i : Instr} {s t : State} {x : Byte} (h : exec i s = .next t)
    (hx : storesToMemory i → x ≠ s.pushAddress) : t.load x = s.load x := by
  rcases exec_next h with ⟨u, hu, rfl⟩ | ⟨r, -, rfl⟩
  · rw [load_advance, handled_keeps_load hu hx]
  · exact s.load_takeFault x r

/-- Settles O22: only the push of PUSH and of CALL stores, and to the push address alone. -/
theorem onlyPushAndCallWriteMemory : Obligations.OnlyPushAndCallWriteMemory :=
  fun _ _ _ h => ⟨fun hi _ => exec_keeps_load h fun hstores => absurd hstores hi,
    fun _ _ hx => exec_keeps_load h fun _ => hx⟩

/-! ### LDI and LD -/

/-- Settles O35: the handler checks operand-A alone and writes operand-B as it is. -/
theorem ldiWritesTheImmediate : Obligations.LdiWritesTheImmediate := by
  refine ⟨encoded3_of_encode fun _ _ => rfl,
    fun _ _ _ ha => raises_of_handled_error (withReg_of_illegal ha _), fun s ra b => ?_⟩
  have himmediate : handled (.ldi (registerByte ra) b) s = .ok (s.setReg ra b) :=
    withReg_registerByte ra _
  exact exec_of_handled_setReg 0x82 himmediate rfl (by decide)

/-- Settles O36: the handler reads the address and the byte there before it writes operand-A's
register, so also when the two registers are the same. -/
theorem ldLoadsTheByteAtTheAddress : Obligations.LdLoadsTheByteAtTheAddress := by
  refine ⟨encoded3_of_encode fun _ _ => rfl, checksAB_of_handled fun _ _ _ => rfl, fun s ra rb => ?_⟩
  have hload : handled (.ld (registerByte ra) (registerByte rb)) s =
      .ok (s.setReg ra (s.load (s.reg rb))) := withReg2_registerByte ra rb _
  exact exec_of_handled_setReg 0x83 hload rfl (by decide)

/-! ### The opcodes without a meaning -/

/-- A one-byte instruction is given by its byte: neither other byte fetched is one of its (R145). -/
theorem encoded1_of_encode {op : Byte} {i : Instr} (h : encode i = [op])
    (hcount : operandCount op = 0) : Encoded1 op i := by
  refine ⟨h, fun x y => ?_⟩
  have hignored : decode ⟨op, x, y⟩ = decode ⟨op, 0, 0⟩ :=
    unusedOperandBytesAreIgnored _ _ rfl (fun h1 : 1 ≤ operandCount op => by omega)
      fun h2 : 2 ≤ operandCount op => by omega
  exact hignored.trans (decode_windowOf_of_encode h)

/-- Settles O34: each of the seven handlers is the placeholder, which looks at no operand and at no
flag. -/
theorem unimplementedOtherOpcodesFault : Obligations.UnimplementedOtherOpcodesFault := by
  refine ⟨encoded3_of_encode ?_, fun _ _ => alwaysUnimplemented_of_handled ?_,
    encoded2_of_encode ?_ rfl, fun _ => alwaysUnimplemented_of_handled ?_,
    encoded2_of_encode ?_ rfl, fun _ => alwaysUnimplemented_of_handled ?_,
    encoded2_of_encode ?_ rfl, fun _ => alwaysUnimplemented_of_handled ?_,
    encoded2_of_encode ?_ rfl, fun _ => alwaysUnimplemented_of_handled ?_,
    encoded2_of_encode ?_ rfl, fun _ => alwaysUnimplemented_of_handled ?_,
    encoded1_of_encode ?_ rfl, alwaysUnimplemented_of_handled ?_⟩
  all_goals intros; rfl

end Sys2Proof.Machine

/-! ## Stack, call and return (spec 43_stack_call.md)

First what the two halves of a push and of a pop make of SP, of the top of the stack and of all else.
Then the state each of the four instructions answers, written out with its pc (`exec_push`, `exec_pop`,
`exec_call`, `exec_ret`); the statements are read off it. The round trips use only the statements on
the two instructions they run. -/

namespace Sys2Proof.Machine

open Sys2Proof.Claims

/-! ### The push and its address -/

namespace State

variable (s : State)

/-- The push address is one below SP, modulo 256: SP 0 pushes at 255 (R138). -/
theorem toNat_pushAddress : s.pushAddress.toNat = (s.sp.toNat + 255) % 256 := by
  rw [Nat.add_comm]
  exact BitVec.toNat_sub s.sp 1

/-- A pop after a push restores SP, across the ends of memory too. -/
theorem pushAddress_add_one : s.pushAddress + 1 = s.sp :=
  BitVec.sub_add_cancel s.sp 1

/-- A push leaves SP at the push address. -/
@[simp] theorem sp_openSlot_storeTop (v : Byte) : (s.openSlot.storeTop v).sp = s.pushAddress :=
  s.sp_openSlot

/-- A push leaves its byte at the push address. -/
@[simp] theorem load_openSlot_storeTop_self (v : Byte) :
    (s.openSlot.storeTop v).load s.pushAddress = v := by
  rw [openSlot_storeTop, load_store, if_pos rfl]

@[simp] theorem sp_setPc (p : Byte) : (s.setPc p).sp = s.sp := rfl

/-! ### The pop -/

/-- The second half of a pop raises SP by one. -/
@[simp] theorem sp_closeSlot : s.closeSlot.sp = s.sp + 1 := by
  rw [sp_eq, reg_closeSlot, if_pos rfl]

/-- A write to a register that is not SP keeps SP. -/
theorem sp_setReg_of_ne (v : Byte) {r : Reg} (hr : r ≠ Config.stackPointer) :
    (s.setReg r v).sp = s.sp := by
  rw [sp_eq, reg_setReg, if_neg hr.symm, sp_eq]

/-- A write to SP is what SP then holds. -/
@[simp] theorem sp_setReg_self (v : Byte) : (s.setReg Config.stackPointer v).sp = v := by
  rw [sp_eq, reg_setReg, if_pos rfl]

end State

/-! ### Frames -/

/-- A push followed by a write of pc changes only what a push may change. -/
theorem onlyPush_openSlot_storeTop_setPc (s : State) (v p : Byte) :
    OnlyPush s ((s.openSlot.storeTop v).setPc p) :=
  ⟨fun _ hq => s.reg_openSlot_storeTop_of_ne v hq, rfl,
    fun _ hx => s.load_openSlot_storeTop_of_ne v hx, rfl, rfl, rfl⟩

/-- A register write changes only that register. -/
theorem onlyRegisters_setReg (s : State) (r : Reg) (v : Byte) : OnlyRegisters [r] s (s.setReg r v) := by
  refine ⟨fun q hq => ?_, by simp⟩
  have hne : q ≠ r := by simpa using hq
  rw [State.reg_setReg, if_neg hne]

/-- The second half of a pop changes only SP. -/
theorem onlyRegisters_closeSlot (s : State) : OnlyRegisters [7] s s.closeSlot :=
  onlyRegisters_setReg s Config.stackPointer (s.sp + 1)

/-- Two changes in a row change only the registers that either lists. -/
theorem onlyRegisters_trans {rs rs' : List Reg} {s t u : State} (h : OnlyRegisters rs s t)
    (h' : OnlyRegisters rs' t u) : OnlyRegisters (rs ++ rs') s u := by
  obtain ⟨hreg, hfl, hload, hrun, hfault, hout⟩ := h
  obtain ⟨hreg', hfl', hload', hrun', hfault', hout'⟩ := h'
  refine ⟨fun q hq => ?_, hfl'.trans hfl, fun x => (hload' x).trans (hload x), hrun'.trans hrun,
    hfault'.trans hfault, hout'.trans hout⟩
  obtain ⟨hq₁, hq₂⟩ := not_or.1 (mt List.mem_append.2 hq)
  exact (hreg' q hq₂).trans (hreg q hq₁)

/-! ### The state each instruction answers -/

/-- With `sets_pc` 0 the handler's state is answered with pc moved past the instruction (R161). -/
theorem exec_of_setsPc_eq_false {i : Instr} {s u : State} (op : Byte) (h : handled i s = .ok u)
    (hop : i.opcode = op) (hpc : setsPc op = false) :
    exec i s = .next (u.setPc (u.pc + BitVec.ofNat 8 (instrLength op))) := by
  subst hop
  rw [exec_of_handled_ok h, advance, if_neg (by rw [hpc]; exact Bool.false_ne_true)]

/-- With `sets_pc` 1 the handler's state is answered as it is (R161). -/
theorem exec_of_setsPc_eq_true {i : Instr} {s u : State} (op : Byte) (h : handled i s = .ok u)
    (hop : i.opcode = op) (hpc : setsPc op = true) : exec i s = .next u := by
  subst hop
  rw [exec_of_handled_ok h, advance, if_pos hpc]

/-- PUSH: the source register is read after the decrement (D11). -/
theorem exec_push (s : State) (ra : Reg) : exec (.push (registerByte ra)) s =
    .next ((s.openSlot.storeTop (s.openSlot.reg ra)).setPc (s.pc + 2)) :=
  exec_of_setsPc_eq_false 0x45 (withReg_registerByte ra _) rfl (by decide)

/-- POP: the destination register is written before SP is raised (D11). -/
theorem exec_pop (s : State) (ra : Reg) : exec (.pop (registerByte ra)) s =
    .next ((s.setReg ra s.top).closeSlot.setPc (s.pc + 2)) :=
  exec_of_setsPc_eq_false 0x46 (withReg_registerByte ra _) rfl (by decide)

/-- CALL: the target register is read after the push (D10), whose store writes no register. -/
theorem exec_call (s : State) (ra : Reg) : exec (.call (registerByte ra)) s =
    .next ((s.openSlot.storeTop (returnAddress s)).setPc (s.openSlot.reg ra)) :=
  exec_of_setsPc_eq_true 0x50 (withReg_registerByte ra _) rfl (by decide)

/-- RET pops into pc. -/
theorem exec_ret (s : State) : exec .ret s = .next (s.setPc s.top).closeSlot :=
  exec_of_setsPc_eq_true 0x11 rfl rfl (by decide)

/-! ### PUSH and POP -/

/-- Settles O37: the push stores the register as it stands after the decrement. -/
theorem pushStoresBelowTheStackPointer : Obligations.PushStoresBelowTheStackPointer := by
  refine ⟨encoded2_of_encode (fun _ => rfl) rfl, checksA_of_handled fun _ _ => rfl, fun s ra => ?_⟩
  have hstored : (s.openSlot.storeTop (s.openSlot.reg ra)).load s.pushAddress = s.openSlot.reg ra :=
    s.load_openSlot_storeTop_self _
  exact ⟨_, exec_push s ra, s.toNat_pushAddress, by rw [State.sp_setPc, State.sp_openSlot_storeTop],
    hstored.trans (s.reg_openSlot ra), BitVec.toNat_add s.pc 2,
    onlyPush_openSlot_storeTop_setPc s _ _⟩

/-- Settles O38: the register gets the top of the stack, and SP, also when it is that register, is
raised from where it then stands. -/
theorem popLoadsAndRaisesTheStackPointer : Obligations.PopLoadsAndRaisesTheStackPointer := by
  refine ⟨encoded2_of_encode (fun _ => rfl) rfl, checksA_of_handled fun _ _ => rfl, fun s ra =>
    ⟨_, exec_pop s ra, fun hra => ⟨?_, ?_⟩, fun hra => ?_, BitVec.toNat_add s.pc 2,
      onlyRegisters_trans (onlyRegisters_setReg s ra s.top) (onlyRegisters_closeSlot _)⟩⟩
  · rw [State.reg_setPc, State.reg_closeSlot_of_ne _ hra, State.reg_setReg, if_pos rfl, State.top]
  · rw [State.sp_setPc, State.sp_closeSlot, State.sp_setReg_of_ne _ _ hra]
    exact BitVec.toNat_add s.sp 1
  · have hsp : (s.setReg ra s.top).sp = s.top := hra ▸ s.sp_setReg_self s.top
    rw [State.sp_setPc, State.sp_closeSlot, hsp]
    exact BitVec.toNat_add s.top 1

/-- A byte whose number is one up modulo 256 is the other plus the byte 1. -/
theorem eq_add_one_of_toNat_eq {x y : Byte} (h : y.toNat = (x.toNat + 1) % 256) : y = x + 1 :=
  BitVec.eq_of_toNat_eq (h.trans (BitVec.toNat_add x 1).symm)

/-- Settles O39: the pop finds SP and the byte there as the push left them. -/
theorem pushThenPopRoundTrip : Obligations.PushThenPopRoundTrip := by
  intro s r r'
  obtain ⟨-, -, hpush⟩ := pushStoresBelowTheStackPointer
  obtain ⟨-, -, hpop⟩ := popLoadsAndRaisesTheStackPointer
  obtain ⟨t, ht, -, hsp, hstored, -⟩ := hpush s r
  obtain ⟨u, hu, hother, hself, -⟩ := hpop t r'
  rw [hsp, hstored] at hother hself
  refine ⟨t, u, ht, hu, fun hr hr' => ?_, fun hr hr' => ?_, fun hr hr' => ?_, fun hr hr' => ?_⟩
  · obtain ⟨hreg, hraised⟩ := hother hr'
    exact ⟨hreg.trans (if_neg hr), (eq_add_one_of_toNat_eq hraised).trans s.pushAddress_add_one⟩
  · obtain ⟨hreg, -⟩ := hother hr'
    exact hreg.trans (if_pos hr)
  · rw [if_neg hr] at hself
    exact eq_add_one_of_toNat_eq (hself hr')
  · rw [if_pos hr] at hself
    exact eq_add_one_of_toNat_eq (hself hr')

/-! ### CALL and RET -/

/-- Settles O40: the push stores pc + 2, and pc gets the register as it stands after the decrement. -/
theorem callPushesTheReturnAddressAndJumps : Obligations.CallPushesTheReturnAddressAndJumps := by
  refine ⟨encoded2_of_encode (fun _ => rfl) rfl, checksA_of_handled fun _ _ => rfl, fun s ra => ?_⟩
  have hstored : (s.openSlot.storeTop (returnAddress s)).load s.pushAddress = s.pc + 2 :=
    s.load_openSlot_storeTop_self _
  exact ⟨_, exec_call s ra, s.toNat_pushAddress, by rw [State.sp_setPc, State.sp_openSlot_storeTop],
    (congrArg (·.toNat) hstored).trans (BitVec.toNat_add s.pc 2), s.reg_openSlot ra,
    onlyPush_openSlot_storeTop_setPc s _ _⟩

/-- RET takes pc from the top of the stack and raises SP; everything else stays. -/
theorem exec_ret_pops (s : State) : ∃ t, exec .ret s = .next t ∧ t.pc = s.load s.sp ∧
    t.sp = s.sp + 1 ∧ OnlyRegisters [7] s t :=
  ⟨_, exec_ret s, rfl, State.sp_closeSlot _, onlyRegisters_closeSlot (s.setPc s.top)⟩

/-- Settles O41: RET finds the byte that the CALL left at SP, which is its return address. -/
theorem retPopsTheStackIntoPc : Obligations.RetPopsTheStackIntoPc := by
  refine ⟨encoded1_of_encode rfl rfl, fun s => ?_, fun s ra hra => ?_⟩
  · obtain ⟨t, ht, hpc, hsp, hframe⟩ := exec_ret_pops s
    exact ⟨t, ht, hpc, hsp ▸ BitVec.toNat_add s.sp 1, hframe⟩
  · obtain ⟨-, -, hcall⟩ := callPushesTheReturnAddressAndJumps
    obtain ⟨t, ht, -, hsp, hreturn, hpc, -⟩ := hcall s ra
    refine ⟨t, ht, hpc.trans (if_neg hra), fun u husp hutop => ?_⟩
    obtain ⟨v, hv, hvpc, hvsp, -⟩ := exec_ret_pops u
    refine ⟨v, hv, ?_, ?_⟩
    · rw [PcMoved, hvpc, husp, hutop, hsp, hreturn]
    · rw [hvsp, husp, hsp, s.pushAddress_add_one]

end Sys2Proof.Machine

/-! ## Comparison and jumps (spec 44_compare_branch.md)

First the three values of FL by the unsigned order, and what a taken and an untaken jump make of pc.
Then the state each of the four instructions answers, written out with its pc (`exec_cmp`, `exec_jmp`,
`exec_jeq`, `exec_jne`); the statements are read off it. -/

namespace Sys2Proof.Machine

open Sys2Proof.Claims

/-! ### The flags of a comparison -/

/-- Each case of the unsigned comparison sets its own bit and no other (R190; G is the decision D9). -/
theorem compareFlags_of_toNat (x y : Byte) :
    (x.toNat = y.toNat → compareFlags x y = 0b001) ∧
      (x.toNat > y.toNat → compareFlags x y = 0b010) ∧
      (x.toNat < y.toNat → compareFlags x y = 0b100) := by
  rcases compareFlags_cases x y with ⟨heq, hfl⟩ | ⟨hgt, hfl⟩ | ⟨hlt, hfl⟩
  · subst heq
    exact ⟨fun _ => hfl, fun h => absurd h (Nat.lt_irrefl _), fun h => absurd h (Nat.lt_irrefl _)⟩
  · rw [BitVec.lt_def] at hgt
    exact ⟨fun h => absurd h hgt.ne', fun _ => hfl, fun h => absurd h hgt.asymm⟩
  · rw [BitVec.lt_def] at hlt
    exact ⟨fun h => absurd h hlt.ne, fun h => absurd h hlt.asymm, fun _ => hfl⟩

/-! ### Jumps, taken and not -/

/-- A write of pc changes nothing else. -/
theorem onlyRegisters_setPc (s : State) (p : Byte) : OnlyRegisters [] s (s.setPc p) :=
  ⟨fun q _ => s.reg_setPc q p, s.setPc_fl p, fun x => s.load_setPc x p, s.setPc_runState p,
    s.setPc_fault p, s.setPc_out p⟩

/-- A jump changes only pc, taken or not. -/
theorem onlyRegisters_jumpWhen (taken : Bool) (s : State) (target : Byte) :
    OnlyRegisters [] s (jumpWhen taken s target) :=
  onlyRegisters_setPc s _

/-- A jump that is taken goes to its target. -/
theorem jumpWhen_pc_of_taken {taken : Bool} (h : taken = true) (s : State) (target : Byte) :
    (jumpWhen taken s target).pc = target :=
  if_pos h

/-- A jump that is not taken goes on behind its one operand, modulo 256 (R152). -/
theorem pcMoved_jumpWhen_of_not_taken {taken : Bool} (h : taken = false) (s : State) (target : Byte) :
    PcMoved 2 s (jumpWhen taken s target) := by
  subst h
  exact BitVec.toNat_add s.pc 2

/-! ### The state each instruction answers -/

/-- CMP writes FL, and the advance moves pc. -/
theorem exec_cmp (s : State) (ra rb : Reg) : exec (.cmp (registerByte ra) (registerByte rb)) s =
    .next ((s.setFl (compareFlags (s.reg ra) (s.reg rb))).setPc (s.pc + 3)) :=
  exec_of_setsPc_eq_false 0xA7 (withReg2_registerByte ra rb _) rfl (by decide)

/-- JMP writes pc from its register. -/
theorem exec_jmp (s : State) (ra : Reg) :
    exec (.jmp (registerByte ra)) s = .next (s.setPc (s.reg ra)) :=
  exec_of_setsPc_eq_true 0x54 (withReg_registerByte ra _) rfl (by decide)

/-- JEQ is the jump that FL.E takes. -/
theorem exec_jeq (s : State) (ra : Reg) :
    exec (.jeq (registerByte ra)) s = .next (jumpWhen s.flagE s (s.reg ra)) :=
  exec_of_setsPc_eq_true 0x55 (withReg_registerByte ra _) rfl (by decide)

/-- JNE is the jump that a clear FL.E takes. -/
theorem exec_jne (s : State) (ra : Reg) :
    exec (.jne (registerByte ra)) s = .next (jumpWhen (!s.flagE) s (s.reg ra)) :=
  exec_of_setsPc_eq_true 0x56 (withReg_registerByte ra _) rfl (by decide)

/-! ### The statements -/

/-- Settles O43: FL becomes the flags of the comparison, by the three cases of the unsigned order. -/
theorem cmpSetsExactlyOneFlag : Obligations.CmpSetsExactlyOneFlag := by
  refine ⟨encoded3_of_encode fun _ _ => rfl, checksAB_of_handled fun _ _ _ => rfl, fun s ra rb => ?_⟩
  obtain ⟨hequal, hgreater, hless⟩ := compareFlags_of_toNat (s.reg ra) (s.reg rb)
  exact ⟨_, exec_cmp s ra rb, hequal, hgreater, hless, BitVec.toNat_add s.pc 3,
    fun _ => rfl, fun _ => rfl, rfl, rfl, rfl⟩

/-- Settles O44: the handler writes pc, and `sets_pc` keeps the advance from it. -/
theorem jmpGoesToTheRegister : Obligations.JmpGoesToTheRegister :=
  ⟨encoded2_of_encode (fun _ => rfl) rfl, checksA_of_handled fun _ _ => rfl,
    fun s ra => ⟨_, exec_jmp s ra, s.setPc_pc _, onlyRegisters_setPc s _⟩⟩

/-- Settles O45: the jump is taken when FL.E, bit 0 of FL, is set; the operand is checked before FL
is looked at. -/
theorem jeqJumpsWhenEqualIsSet : Obligations.JeqJumpsWhenEqualIsSet :=
  ⟨encoded2_of_encode (fun _ => rfl) rfl, checksA_of_handled fun _ _ => rfl,
    fun s ra => ⟨_, exec_jeq s ra, fun hset => jumpWhen_pc_of_taken hset s _,
      fun hclear => pcMoved_jumpWhen_of_not_taken hclear s _, onlyRegisters_jumpWhen _ s _⟩⟩

/-- Settles O46: the jump is taken when FL.E, bit 0 of FL, is clear; the operand is checked before FL
is looked at. -/
theorem jneJumpsWhenEqualIsClear : Obligations.JneJumpsWhenEqualIsClear :=
  ⟨encoded2_of_encode (fun _ => rfl) rfl, checksA_of_handled fun _ _ => rfl,
    fun s ra => ⟨_, exec_jne s ra, fun hclear => jumpWhen_pc_of_taken (congrArg not hclear) s _,
      fun hset => pcMoved_jumpWhen_of_not_taken (congrArg not hset) s _,
      onlyRegisters_jumpWhen _ s _⟩⟩

end Sys2Proof.Machine

/-! ## Output (spec 45_io.md)

The port frame of every instruction first: a fault and the advance print nothing, so it is that of the
handler. Then PRN and PRA, each from the state it answers (`exec_prn`, `exec_pra`) and from the text of
one more event. Last the text of a number, from the digits it can be made of (`decimalText_cases`). -/

namespace Sys2Proof.Machine

open Sys2Proof.Claims

/-! ### The port frame of every handler, then of every instruction -/

/-- A handler that completes appends what its instruction prints, and most print nothing (R122). -/
theorem handled_appends_printed {i : Instr} {s u : State} (h : handled i s = .ok u) :
    u.out = s.out ++ printed s i := by
  cases i with
  | prn a | pra a =>
    obtain ⟨r, rfl, rfl⟩ := withReg_eq_ok h
    rw [State.output_out, printed, registerBits_registerByte]
  | nop | hlt | ret => cases h; exact (List.append_nil s.out).symm
  | push | pop | call | jmp | jeq | jne | inc | dec | ldi =>
    exact withReg_ok_of_forall (P := (·.out = s.out ++ [])) h fun _ => (List.append_nil s.out).symm
  | ld | add | mul | cmp =>
    exact withReg2_ok_of_forall (P := (·.out = s.out ++ [])) h fun _ _ => (List.append_nil s.out).symm
  -- The placeholders raise, so none of them completes (R210).
  | iret | int | jgt | jlt | jle | jge | not | st | sub | div | mod | and | or | xor | shl | shr =>
    cases h

/-- Settles O25: the handler appends what its instruction prints, or the fault is taken. -/
theorem onlyPrintsAppendToThePort : Obligations.OnlyPrintsAppendToThePort := by
  intro i s t h
  rcases exec_next h with ⟨u, hu, rfl⟩ | ⟨r, -, rfl⟩
  · exact .inl ((advance_out i u).trans (handled_appends_printed hu))
  · exact .inr ⟨_, _, faultTaken_takeFault s r⟩

/-! ### The text of the port -/

/-- The text of a longer port is the old text and then that of the new event (R200). -/
theorem outputText_append_singleton (es : List OutputEvent) (e : OutputEvent) :
    outputText (es ++ [e]) = outputText es ++ e.text := by
  induction es with
  | nil => exact List.append_nil e.text
  | cons e' rest ih => rw [List.cons_append, outputText, outputText, ih, List.append_assoc]

/-! ### PRN and PRA -/

/-- PRN appends a number event, and the advance moves pc. -/
theorem exec_prn (s : State) (ra : Reg) : exec (.prn (registerByte ra)) s =
    .next ((s.output .num (s.reg ra)).setPc (s.pc + 2)) :=
  exec_of_setsPc_eq_false 0x47 (withReg_registerByte ra _) rfl (by decide)

/-- PRA appends a character event, and the advance moves pc. -/
theorem exec_pra (s : State) (ra : Reg) : exec (.pra (registerByte ra)) s =
    .next ((s.output .char (s.reg ra)).setPc (s.pc + 2)) :=
  exec_of_setsPc_eq_false 0x48 (withReg_registerByte ra _) rfl (by decide)

/-- Settles O47: the handler appends the event, whose text is the decimal text of its value. -/
theorem prnAppendsANumber : Obligations.PrnAppendsANumber :=
  ⟨encoded2_of_encode (fun _ => rfl) rfl, checksA_of_handled fun _ _ => rfl,
    fun s ra => ⟨_, exec_prn s ra, rfl, outputText_append_singleton s.out ⟨.num, s.reg ra⟩,
      BitVec.toNat_add s.pc 2, fun _ => rfl, rfl, fun _ => rfl, rfl, rfl⟩⟩

/-- Settles O48: the handler appends the event, whose text is the character of its value. -/
theorem praAppendsACharacter : Obligations.PraAppendsACharacter :=
  ⟨encoded2_of_encode (fun _ => rfl) rfl, checksA_of_handled fun _ _ => rfl,
    fun s ra => ⟨_, exec_pra s ra, rfl, outputText_append_singleton s.out ⟨.char, s.reg ra⟩,
      BitVec.toNat_add s.pc 2, fun _ => rfl, rfl, fun _ => rfl, rfl, rfl⟩⟩

/-! ### The text of a number -/

/-- The digits stand in order from the character 0 on. -/
theorem toNat_digitChar {d : Nat} (hd : d < 10) : (digitChar d).toNat = 48 + d := by
  have hvalid : (48 + d).isValidChar := .inl (by omega)
  rw [digitChar, Char.toNat_ofNat, if_pos hvalid]

/-- The character of a digit is one from 0 to 9. -/
theorem digitChar_bounds {d : Nat} (hd : d < 10) :
    48 ≤ (digitChar d).toNat ∧ (digitChar d).toNat ≤ 57 := by
  rw [toNat_digitChar hd]; omega

/-- The value of a digit is read back from its character. -/
theorem toNat_digitChar_sub {d : Nat} (hd : d < 10) : (digitChar d).toNat - 48 = d := by
  rw [toNat_digitChar hd, Nat.add_sub_cancel_left]

/-- Only the digit 0 is the character 0. -/
theorem eq_zero_of_digitChar_eq {d : Nat} (hd : d < 10) (h : digitChar d = '0') : d = 0 := by
  have hcode : 48 + d = 48 := (toNat_digitChar hd).symm.trans (congrArg Char.toNat h)
  omega

/-- The text of a byte is one digit, or two or three of which the first is not 0; the digits are
those of its value. -/
theorem decimalText_cases (v : Byte) :
    (∃ d, d < 10 ∧ v.toNat = d ∧ decimalText v = [digitChar d]) ∨
      (∃ d e, d ≠ 0 ∧ d < 10 ∧ e < 10 ∧ v.toNat = 10 * d + e ∧
        decimalText v = [digitChar d, digitChar e]) ∨
      (∃ d e f, d ≠ 0 ∧ d < 10 ∧ e < 10 ∧ f < 10 ∧ v.toNat = 10 * (10 * d + e) + f ∧
        decimalText v = [digitChar d, digitChar e, digitChar f]) := by
  have hv : v.toNat < 256 := v.isLt
  by_cases hten : v.toNat < 10
  · exact .inl ⟨_, hten, rfl, if_pos hten⟩
  by_cases hhundred : v.toNat < 100
  · exact .inr (.inl ⟨v.toNat / 10, v.toNat % 10, by omega, by omega, by omega, by omega,
      (if_neg hten).trans (if_pos hhundred)⟩)
  · exact .inr (.inr ⟨v.toNat / 100, v.toNat / 10 % 10, v.toNat % 10, by omega, by omega, by omega,
      by omega, by omega, (if_neg hten).trans (if_neg hhundred)⟩)

/-- Settles O49: of the texts a byte can have, only the one digit 0 begins with the character 0. -/
theorem numberTextIsDecimal : Obligations.NumberTextIsDecimal := by
  intro v
  rcases decimalText_cases v with ⟨d, hd, hv, htext⟩ | ⟨d, e, hne, hd, he, hv, htext⟩ |
    ⟨d, e, f, hne, hd, he, hf, hv, htext⟩
  · have hzero (h : digitChar d = '0') : v = 0 ∧ digitChar d = '0' :=
      ⟨BitVec.eq_of_toNat_eq (hv.trans (eq_zero_of_digitChar_eq hd h)), h⟩
    simpa [htext, hv, toNat_digitChar_sub hd, digitChar_bounds hd] using hzero
  · have hfirst : digitChar d ≠ '0' := mt (eq_zero_of_digitChar_eq hd) hne
    simp [htext, hv, toNat_digitChar_sub, digitChar_bounds, hd, he, hfirst]
  · have hfirst : digitChar d ≠ '0' := mt (eq_zero_of_digitChar_eq hd) hne
    simp [htext, hv, toNat_digitChar_sub, digitChar_bounds, hd, he, hf, hfirst]

end Sys2Proof.Machine

/-! ## NOP and HLT (spec 46_nop_halt.md)

First what a core that has stopped answers. Then the state each of the two instructions answers,
written out with its pc (`exec_nop`, `exec_hlt`); the statements are read off it. -/

namespace Sys2Proof.Machine

open Sys2Proof.Claims

/-! ### The core that has stopped -/

/-- A HALTED core has no step (R207). -/
theorem step_of_halted {s : State} (h : s.runState = .halted) : step s = .fault .coreHalted := by
  rw [step, h]

/-- A FAULTED core has no step (R216). -/
theorem step_of_faulted {s : State} (h : s.runState = .faulted) : step s = .fault .coreFaulted := by
  rw [step, h]

/-- A run that ends HALTED ends with status 0 (R165). -/
theorem exitStatus_of_halted {s : State} (h : s.runState = .halted) : s.exitStatus = some .zero := by
  rw [State.exitStatus, h]

/-- Settles O18: each of the two run states has its own answer, before anything is fetched. -/
theorem stoppedCoreHasNoStep : Obligations.StoppedCoreHasNoStep :=
  fun _ => ⟨step_of_halted, step_of_faulted⟩

/-! ### The state each instruction answers -/

/-- NOP leaves all to the advance, which moves pc. -/
theorem exec_nop (s : State) : exec .nop s = .next (s.setPc (s.pc + 1)) :=
  exec_of_setsPc_eq_false 0x00 rfl rfl (by decide)

/-- HLT halts, and the advance still moves pc (R162). -/
theorem exec_hlt (s : State) : exec .hlt s = .next (s.halt.setPc (s.pc + 1)) :=
  exec_of_setsPc_eq_false 0x01 rfl rfl (by decide)

/-! ### NOP and HLT -/

/-- Settles O50: the advance alone changes the state, and only in pc. -/
theorem nopOnlyAdvances : Obligations.NopOnlyAdvances :=
  ⟨encoded1_of_encode rfl rfl,
    fun s => ⟨_, exec_nop s, BitVec.toNat_add s.pc 1, onlyRegisters_setPc s _⟩⟩

/-- Settles O51: the state answered is HALTED, from which come its missing step and its exit status;
neither the halt nor the advance writes anything but the run state and pc. -/
theorem hltHaltsAndAdvances : Obligations.HltHaltsAndAdvances := by
  refine ⟨encoded1_of_encode rfl rfl, fun s => ?_⟩
  have hhalted : (s.halt.setPc (s.pc + 1)).runState = .halted := s.halt_runState
  exact ⟨_, exec_hlt s, hhalted, step_of_halted hhalted, exitStatus_of_halted hhalted,
    BitVec.toNat_add s.pc 1, fun q => s.reg_halt q, s.halt_fl, fun x => s.load_halt x, s.halt_fault,
    s.halt_out⟩

end Sys2Proof.Machine

/-! ## The exceptions (spec 60_exceptions.md)

The order of R214 is said once for the handlers: a placeholder raises before any operand
(`handled_of_unimplemented`), and every other handler raises on its first illegal register byte or
completes (`handled_checksOperands`). With the decoder's answer this gives what a step takes in each
clause of the order; the codes of the records follow from that order. -/

namespace Sys2Proof.Machine

open Sys2Proof.Claims

/-! ### The order of the operand checks -/

/-- The first of a handler's register bytes that names no register (R144, R211). -/
def firstIllegalByte (bytes : List Byte) : Option Byte :=
  bytes.find? fun x => decide (8 ≤ x.toNat)

/-- There is no such byte just when all are legal. -/
theorem firstIllegalByte_eq_none_iff {bytes : List Byte} :
    firstIllegalByte bytes = none ↔ ∀ r ∈ bytes, r.toNat < 8 := by
  simp [firstIllegalByte]

theorem firstIllegalByte_cons_of_illegal {b : Byte} (h : 8 ≤ b.toNat) (rest : List Byte) :
    firstIllegalByte (b :: rest) = some b :=
  List.find?_cons_of_pos (decide_eq_true h)

theorem firstIllegalByte_cons_registerByte (r : Reg) (rest : List Byte) :
    firstIllegalByte (registerByte r :: rest) = firstIllegalByte rest :=
  List.find?_cons_of_neg (by simpa using toNat_registerByte_lt r)

/-- A handler's answer `h` checks the register bytes in order: it raises IllegalRegister with the
first illegal one, or it completes (R214). -/
def ChecksOperands (bytes : List Byte) (h : Except Raise State) : Prop :=
  (∃ r, firstIllegalByte bytes = some r ∧ h = .error ⟨.illegalRegister, r⟩) ∨
    (firstIllegalByte bytes = none ∧ ∃ u, h = .ok u)

theorem withReg_checksOperands (a : Byte) (f : Reg → State) : ChecksOperands [a] (withReg a f) := by
  rcases withReg_cases a f with ⟨r, rfl, h⟩ | ⟨ha, h⟩
  · exact .inr ⟨firstIllegalByte_cons_registerByte r [], _, h⟩
  · exact .inl ⟨a, firstIllegalByte_cons_of_illegal ha [], h⟩

theorem withReg2_checksOperands (a b : Byte) (f : Reg → Reg → State) :
    ChecksOperands [a, b] (withReg2 a b f) := by
  rcases withReg2_cases a b f with ⟨r, q, rfl, rfl, h⟩ | ⟨ha, h⟩ | ⟨r, rfl, hb, h⟩
  · refine .inr ⟨?_, _, h⟩
    rw [firstIllegalByte_cons_registerByte, firstIllegalByte_cons_registerByte]; rfl
  · exact .inl ⟨a, firstIllegalByte_cons_of_illegal ha [b], h⟩
  · refine .inl ⟨b, ?_, h⟩
    rw [firstIllegalByte_cons_registerByte, firstIllegalByte_cons_of_illegal hb]

/-! ### What a handler raises -/

/-- An unimplemented opcode's handler raises before it looks at an operand (R210). -/
theorem handled_of_unimplemented {i : Instr} (hst : opcodeStatus i.opcode = .unimplemented)
    (s : State) : handled i s = .error ⟨.unimplementedOpcode, i.opcode⟩ := by
  cases i with
  | iret | int | jgt | jlt | jle | jge | not | st | sub | div | mod | and | or | xor | shl | shr => rfl
  -- These opcodes are implemented.
  | nop | hlt | ret | push | pop | prn | pra | call | jmp | jeq | jne | inc | dec | ldi
  | ld | add | mul | cmp => cases hst

/-- An implemented opcode's handler raises nothing but IllegalRegister, in the order of R214. -/
theorem handled_checksOperands {i : Instr} (hst : opcodeStatus i.opcode = .implemented) (s : State) :
    ChecksOperands i.registerOperands (handled i s) := by
  cases i with
  | nop | hlt | ret => exact .inr ⟨rfl, _, rfl⟩
  | push | pop | prn | pra | call | jmp | jeq | jne | inc | dec | ldi =>
    exact withReg_checksOperands _ _
  | ld | add | mul | cmp => exact withReg2_checksOperands _ _ _
  -- These opcodes are unimplemented.
  | iret | int | jgt | jlt | jle | jge | not | st | sub | div | mod | and | or | xor | shl | shr =>
    cases hst

/-- A handler that completes leaves the fault record as it is: only a fault taken writes it (R208). -/
theorem handled_keeps_fault {i : Instr} {s u : State} (h : handled i s = .ok u) :
    u.fault = s.fault := by
  cases i with
  | nop | hlt | ret => cases h; rfl
  | push | pop | prn | pra | call | jmp | jeq | jne | inc | dec | ldi =>
    exact withReg_ok_of_forall (P := (·.fault = s.fault)) h fun _ => rfl
  | ld | add | mul | cmp =>
    exact withReg2_ok_of_forall (P := (·.fault = s.fault)) h fun _ _ => rfl
  -- The placeholders raise, so none of them completes (R210).
  | iret | int | jgt | jlt | jle | jge | not | st | sub | div | mod | and | or | xor | shl | shr =>
    cases h

/-! ### The status of an opcode byte and the decoder -/

/-- A byte is unknown just when it has no table entry: every row has another status (R150, R157). -/
theorem opcodeStatus_eq_unknown_iff {op : Byte} :
    opcodeStatus op = .unknown ↔ dispatchEntry op = none := by
  have hrows : ∀ row ∈ dispatchTable, row.status ≠ .unknown := by decide
  cases hrow : dispatchEntry op with
  | none => simp [opcodeStatus, hrow]
  | some row => simp [opcodeStatus, hrow, hrows row (dispatchEntry_some hrow).1]

/-- A window whose opcode byte is not unknown decodes, to an instruction with that byte. -/
theorem decode_of_status_ne_unknown {w : Window} (h : opcodeStatus w.op ≠ .unknown) :
    ∃ i, decode w = .ok i ∧ i.opcode = w.op := by
  obtain ⟨row, hrow⟩ := Option.ne_none_iff_exists'.1 (mt opcodeStatus_eq_unknown_iff.2 h)
  have hdec := decode_of_entry hrow
  exact ⟨_, hdec, (decode_ok hdec).1⟩

/-! ### What a step takes, in the order of R214 -/

section order

variable {s : State} (hrun : s.runState = .running)
include hrun

/-- A RUNNING core at an unimplemented opcode takes UnimplementedOpcode, whatever the operands (R210). -/
theorem step_of_unimplemented (hst : opcodeStatus (fetch s).op = .unimplemented) :
    step s = .next (s.takeFault ⟨.unimplementedOpcode, (fetch s).op⟩) := by
  obtain ⟨i, hdec, hop⟩ := decode_of_status_ne_unknown (w := fetch s) (by simp [hst])
  rw [step_of_decoded hrun hdec, ← hop]
  exact exec_of_handled_error (handled_of_unimplemented (hop ▸ hst) s)

/-- The step of an implemented opcode takes IllegalRegister with its first illegal register byte, or
its handler completes. -/
theorem step_of_implemented {i : Instr} (hdec : decode (fetch s) = .ok i)
    (hst : opcodeStatus (fetch s).op = .implemented) :
    (∃ r, firstIllegalByte i.registerOperands = some r ∧
        step s = .next (s.takeFault ⟨.illegalRegister, r⟩)) ∨
      (firstIllegalByte i.registerOperands = none ∧
        ∃ u, handled i s = .ok u ∧ step s = .next (advance i u)) := by
  rw [← (decode_ok hdec).1] at hst
  rw [step_of_decoded hrun hdec]
  rcases handled_checksOperands hst s with ⟨r, hr, h⟩ | ⟨hnone, u, h⟩
  · exact .inl ⟨r, hr, exec_of_handled_error h⟩
  · exact .inr ⟨hnone, u, h, exec_of_handled_ok h⟩

end order

/-- A step that takes a fault leads to the state with that fault taken. -/
theorem faultTaken_of_step {s t : State} {r : Raise} (hstep : step s = .next t)
    (hfault : step s = .next (s.takeFault r)) : FaultTaken s r.kind r.byte t := by
  obtain rfl : t = s.takeFault r := Host.Outcome.next.inj (hstep.symm.trans hfault)
  exact faultTaken_takeFault s r

/-- The record of a fault taken has the code of its kind (R208). -/
theorem code_of_faultTaken {s t : State} {k : FaultKind} {b : Byte} (h : FaultTaken s k b t) :
    t.fault.map FaultRecord.code = some k.code := by
  obtain ⟨-, hfault, -⟩ := h
  rw [hfault]; rfl

/-! ### The statements -/

/-- Settles O15: the decoder rejects an unknown byte, the placeholder raises before its operands, and
an implemented handler raises on its first illegal register byte or completes, which keeps the fault
record. -/
theorem faultsComeInTheOrderOfTheSpec : Obligations.FaultsComeInTheOrderOfTheSpec := by
  intro s hrun
  obtain ⟨t, hstep⟩ := (runningCoreTakesItsNextStep s).2 hrun
  refine ⟨t, hstep, fun hst => ?_, fun hst => ?_, fun i hdec hst => ?_⟩
  · exact faultTaken_of_step hstep (step_of_unknown hrun (opcodeStatus_eq_unknown_iff.1 hst))
  · exact faultTaken_of_step hstep (step_of_unimplemented hrun hst)
  · rcases step_of_implemented hrun hdec hst with ⟨r, hr, h⟩ | ⟨hnone, u, hu, h⟩
    · refine ⟨fun r' hr' => ?_, fun hlegal => ?_⟩
      · obtain rfl : r = r' := Option.some.inj (hr.symm.trans hr')
        exact faultTaken_of_step hstep h
      · exact nomatch hr.symm.trans (firstIllegalByte_eq_none_iff.2 hlegal)
    · obtain rfl : t = advance i u := Host.Outcome.next.inj (hstep.symm.trans h)
      refine ⟨fun r' hr' => ?_, fun _ => ?_⟩
      · exact nomatch hnone.symm.trans hr'
      · rw [advance_runState, advance_fault]
        exact ⟨handled_runState_ne_faulted hu (by simp [hrun]), handled_keeps_fault hu⟩

/-- Settles O54: the order of R214 tells the kind of fault from the opcode byte's status, and the kind
fixes the code; a step to FAULTED at an implemented opcode had an illegal register byte. -/
theorem faultRecordHoldsTheCodeOfItsCause : Obligations.FaultRecordHoldsTheCodeOfItsCause := by
  intro s t hrun hstep hfaulted
  obtain ⟨t', hstep', hunknown, hunimplemented, himplemented⟩ := faultsComeInTheOrderOfTheSpec s hrun
  obtain rfl : t = t' := Host.Outcome.next.inj (hstep.symm.trans hstep')
  refine ⟨fun hst => code_of_faultTaken (hunknown hst),
    fun hst => code_of_faultTaken (hunimplemented hst), fun hst => ?_⟩
  obtain ⟨i, hdec, -⟩ := decode_of_status_ne_unknown (w := fetch s) (by simp [fetch, hst])
  obtain ⟨hillegal, hlegal⟩ := himplemented i hdec hst
  cases hfirst : firstIllegalByte i.registerOperands with
  | some r => exact code_of_faultTaken (hillegal r hfirst)
  | none => exact absurd hfaulted (hlegal (firstIllegalByte_eq_none_iff.1 hfirst)).1

end Sys2Proof.Machine

/-! ## The encoder and the decoder (spec 30_encoding.md sections 1 and 3)

The decoder looks at no more bytes of a window than the opcode byte counts, and an encoding has that
many: so what follows an encoding never matters, and a decoded window is cut back to its encoding. -/

namespace Sys2Proof.Machine

open Sys2Proof.Claims

/-! ### Decoding an encoding -/

/-- An encoding has the bytes its opcode byte counts, as far as a window reaches. -/
theorem lt_length_encode {i : Instr} {n : Nat} (hn : n ≤ operandCount i.opcode) (hwindow : n ≤ 2) :
    n < (encode i).length := by
  have hargs : i.operands.length = min (operandCount i.opcode) 2 := by
    obtain ⟨hop, hargs⟩ := decode_ok (decode_windowOf_encode i)
    rw [hargs, hop, List.length_take]; rfl
  rw [encode, List.length_cons]
  omega

/-- The counted bytes of a window over an encoding do not depend on what follows it. -/
theorem getD_encode_append {i : Instr} {n : Nat} (hn : n ≤ operandCount i.opcode) (hwindow : n ≤ 2)
    (rest : List Byte) : (encode i ++ rest).getD n 0 = (encode i).getD n 0 :=
  List.getD_append _ _ _ _ (lt_length_encode hn hwindow)

/-- Settles O7: what follows the encoding is past its operand bytes, which the decoder ignores. -/
theorem decodingAnEncodingGivesTheInstruction : Obligations.DecodingAnEncodingGivesTheInstruction := by
  intro i rest
  have hignored : decode (windowOf (encode i ++ rest)) = decode (windowOf (encode i)) :=
    unusedOperandBytesAreIgnored _ _ rfl (fun h1 => getD_encode_append h1 (by decide) rest)
      fun h2 => getD_encode_append h2 (by decide) rest
  exact hignored.trans (decode_windowOf_encode i)

/-- Settles O8: the instruction has the window's opcode byte and its counted operand bytes. -/
theorem encodingADecodedWindowGivesItsBytes : Obligations.EncodingADecodedWindowGivesItsBytes := by
  intro w i h
  obtain ⟨hop, hargs⟩ := decode_ok h
  rw [encode, hop, hargs, instrLength, Nat.add_comm, Window.bytes, List.take_succ_cons]

/-! ### The opcode map and the words of the spec -/

/-- Settles O10: each row of the opcode map is computed and compared. -/
theorem formatFieldsAgreeWithTheOpcodeMap : Obligations.FormatFieldsAgreeWithTheOpcodeMap :=
  ⟨rfl, by decide⟩

/-- Settles O12: each word is decoded. -/
theorem wordsOfTheSpecDecode : Obligations.WordsOfTheSpecDecode :=
  ⟨rfl, rfl, rfl, rfl, rfl, rfl, rfl, rfl⟩

end Sys2Proof.Machine

/-! ## What a run never reads (spec 10_state.md sections 3 and 6)

Two states that a step cannot tell apart but by what it never reads take related steps. The simulation
is said once, for any relation between states (`step_simulation`): it is enough that the taking of a
fault, the handlers and the advance keep the relation. It is used for the bits of FL other than E and
for the output port. -/

namespace Sys2Proof.Machine

open Sys2Proof.Claims

/-! ### The simulation of a step -/

/-- Two handlers answer alike: both complete, in related states, or both raise the same fault. -/
inductive AnswersAlike (R : State → State → Prop) :
    Except Raise State → Except Raise State → Prop where
  | ok {u u' : State} (h : R u u') : AnswersAlike R (.ok u) (.ok u')
  | error (r : Raise) : AnswersAlike R (.error r) (.error r)

/-- A one-register handler checks its operand before it looks at the state. -/
theorem withReg_answersAlike {R : State → State → Prop} (a : Byte) {f f' : Reg → State}
    (h : ∀ r, R (f r) (f' r)) : AnswersAlike R (withReg a f) (withReg a f') := by
  rcases reg_cases a with ⟨r, rfl, -⟩ | ⟨ha, -⟩
  · rw [withReg_registerByte, withReg_registerByte]; exact .ok (h r)
  · rw [withReg_of_illegal ha, withReg_of_illegal ha]; exact .error _

/-- A two-register handler checks both operands before it looks at the state. -/
theorem withReg2_answersAlike {R : State → State → Prop} (a b : Byte) {f f' : Reg → Reg → State}
    (h : ∀ ra rb, R (f ra rb) (f' ra rb)) : AnswersAlike R (withReg2 a b f) (withReg2 a b f') := by
  rcases reg_cases a with ⟨ra, rfl, -⟩ | ⟨ha, -⟩
  · rcases reg_cases b with ⟨rb, rfl, -⟩ | ⟨hb, -⟩
    · rw [withReg2_registerByte, withReg2_registerByte]; exact .ok (h ra rb)
    · rw [withReg2_of_illegalB ra hb, withReg2_of_illegalB ra hb]; exact .error _
  · rw [withReg2_of_illegalA ha, withReg2_of_illegalA ha]; exact .error _

/-- What `step_simulation` asks of the two states: what they share, and that faults, handlers and the
advance keep the relation. -/
structure Simulates (R : State → State → Prop) (s s' : State) : Prop where
  /-- The same run state. -/
  runState : s'.runState = s.runState
  /-- The same window at pc. -/
  fetch : fetch s' = fetch s
  /-- The same fault taken in both leads to related states. -/
  takeFault : ∀ r, R (s.takeFault r) (s'.takeFault r)
  /-- The handlers answer alike. -/
  handled : ∀ i, AnswersAlike R (handled i s) (handled i s')
  /-- The advance keeps the relation. -/
  advance : ∀ i u u', R u u' → R (advance i u) (advance i u')

section simulation

variable {R : State → State → Prop} {s s' t : State} (hsim : Simulates R s s')
include hsim

/-- The cycle around handlers that answer alike leads to related states. -/
theorem complete_simulation {i : Instr} {h h' : Except Raise State} (halike : AnswersAlike R h h')
    (hnext : complete i s h = .next t) : ∃ t', complete i s' h' = .next t' ∧ R t t' := by
  cases halike with
  | ok hu =>
    rw [complete_ok] at hnext ⊢
    exact ⟨_, rfl, Host.Outcome.next.inj hnext ▸ hsim.advance i _ _ hu⟩
  | error r => cases hnext; exact ⟨_, rfl, hsim.takeFault r⟩

/-- A step of the one state is followed by a step of the other to a related state. -/
theorem step_simulation (h : step s = .next t) : ∃ t', step s' = .next t' ∧ R t t' := by
  have hrun : s.runState = .running := running_of_step_next h
  have hrun' : s'.runState = .running := hsim.runState.trans hrun
  rcases step_of_running hrun with ⟨hop, hstep⟩ | ⟨i, hdec, hstep⟩
  · have hop' : s'.load s'.pc = s.load s.pc := congrArg Window.op hsim.fetch
    obtain rfl : s.takeFault _ = t := Host.Outcome.next.inj (hstep.symm.trans h)
    exact ⟨_, step_of_unknown hrun' (hop' ▸ hop), hop' ▸ hsim.takeFault _⟩
  · rw [step_of_decoded hrun' (hsim.fetch ▸ hdec), exec_eq_complete]
    exact complete_simulation hsim (hsim.handled i) (by rw [← exec_eq_complete, ← hstep, h])

end simulation

/-! ### The bits of FL other than E -/

/-- States that agree but for those bits are equal but for FL. -/
theorem agreeButGreaterLess_iff {s s' : State} :
    AgreeButGreaterLess s s' ↔ ∃ v, s' = s.setFl v ∧ (s.setFl v).flagE = s.flagE := by
  constructor
  · rintro ⟨heq, hE⟩
    exact ⟨s'.fl, heq, hE⟩
  · rintro ⟨v, rfl, hE⟩
    exact ⟨rfl, hE⟩

/-- The advance looks at pc alone. -/
theorem agreeButGreaterLess_advance (i : Instr) {u u' : State} (h : AgreeButGreaterLess u u') :
    AgreeButGreaterLess (advance i u) (advance i u') := by
  obtain ⟨v, rfl, hE⟩ := agreeButGreaterLess_iff.1 h
  unfold advance
  split <;> exact ⟨rfl, hE⟩

/-- Of FL a handler reads E alone, and CMP writes it whole (R117). -/
theorem handled_setFl_answersAlike {s : State} {v : Byte} (hE : (s.setFl v).flagE = s.flagE)
    (i : Instr) :
    AnswersAlike AgreeButGreaterLess (handled i s) (handled i (s.setFl v)) := by
  cases i with
  | nop | hlt | ret => exact .ok ⟨rfl, hE⟩
  | push | pop | prn | pra | call | jmp | inc | dec | ldi =>
    exact withReg_answersAlike _ fun _ => ⟨rfl, hE⟩
  | jeq | jne =>
    refine withReg_answersAlike _ fun _ => ?_
    rw [hE]
    exact ⟨rfl, hE⟩
  | ld | add | mul => exact withReg2_answersAlike _ _ fun _ _ => ⟨rfl, hE⟩
  | cmp => exact withReg2_answersAlike _ _ fun _ _ => ⟨rfl, rfl⟩
  -- The placeholders raise, whatever the state (R210).
  | iret | int | jgt | jlt | jle | jge | not | st | sub | div | mod | and | or | xor | shl | shr =>
    exact .error _

/-- States that agree but for those bits take steps to such states. -/
theorem simulates_agreeButGreaterLess {s s' : State} (h : AgreeButGreaterLess s s') :
    Simulates AgreeButGreaterLess s s' := by
  obtain ⟨v, rfl, hE⟩ := agreeButGreaterLess_iff.1 h
  exact ⟨rfl, rfl, fun _ => ⟨rfl, hE⟩, handled_setFl_answersAlike hE,
    fun i _ _ => agreeButGreaterLess_advance i⟩

/-! ### Runs -/

/-- No step leads nowhere else. -/
@[simp] theorem reaches_zero {s t : State} : Reaches 0 s t ↔ s = t :=
  ⟨Host.Outcome.next.inj, congrArg Host.Outcome.next⟩

/-- A longer run is a step and the rest of the run. -/
theorem reaches_succ {n : Nat} {s t : State} :
    Reaches (n + 1) s t ↔ ∃ u, step s = .next u ∧ Reaches n u t := by
  have hcore : Sys2Proof.core.step s = step s := rfl
  simp only [Reaches, Host.Core.run, hcore]
  cases step s with
  | next u => exact ⟨fun h => ⟨u, rfl, h⟩, fun ⟨_, hu, h⟩ => Host.Outcome.next.inj hu ▸ h⟩
  | fault | refused => exact ⟨nofun, nofun⟩

/-- A relation that every step keeps, every run keeps. -/
theorem reaches_simulation {R : State → State → Prop}
    (hstep : ∀ s s' t, R s s' → step s = .next t → ∃ t', step s' = .next t' ∧ R t t')
    {n : Nat} {s s' t : State} (hR : R s s') (h : Reaches n s t) :
    ∃ t', Reaches n s' t' ∧ R t t' := by
  induction n generalizing s s' with
  | zero => exact ⟨s', reaches_zero.2 rfl, reaches_zero.1 h ▸ hR⟩
  | succ n ih =>
    obtain ⟨u, hu, hrest⟩ := reaches_succ.1 h
    obtain ⟨u', hu', hR'⟩ := hstep s s' u hR hu
    obtain ⟨t', ht', hRt⟩ := ih hR' hrest
    exact ⟨t', reaches_succ.2 ⟨u', hu', ht'⟩, hRt⟩

/-- Settles O27: agreement but for those bits is kept by every step, so by every run. -/
theorem greaterAndLessNeverMatterToARun : Obligations.GreaterAndLessNeverMatterToARun :=
  fun _ _ _ _ hagree h => reaches_simulation
    (fun _ _ _ hR => step_simulation (simulates_agreeButGreaterLess hR)) hagree h

/-! ### The output port -/

/-- The state with another output so far. -/
def State.withOut (s : State) (o : List OutputEvent) : State := { s with out := o }

/-- `u` and `u'` are the same but for the port, which began as that of `s` and as `o` and since then
got the same events. -/
def AgreeButPort (s : State) (o : List OutputEvent) (u u' : State) : Prop :=
  ∃ es, u.out = s.out ++ es ∧ u' = u.withOut (o ++ es)

/-- States that printed nothing since. -/
theorem agreeButPort_of_no_event {s u u' : State} {o : List OutputEvent} (hout : u.out = s.out)
    (h : u' = u.withOut o) : AgreeButPort s o u u' :=
  ⟨[], hout.trans (List.append_nil _).symm, h.trans (congrArg u.withOut (List.append_nil _).symm)⟩

/-- The advance does not look at the port. -/
theorem agreeButPort_advance {s u u' : State} {o : List OutputEvent} (i : Instr)
    (h : AgreeButPort s o u u') : AgreeButPort s o (advance i u) (advance i u') := by
  obtain ⟨es, hout, rfl⟩ := h
  refine ⟨es, (advance_out i u).trans hout, ?_⟩
  unfold advance
  split <;> rfl

/-- No handler reads the port, and PRN and PRA append to it (R122). -/
theorem handled_withOut_answersAlike (s : State) (o : List OutputEvent) (i : Instr) :
    AnswersAlike (AgreeButPort s o) (handled i s) (handled i (s.withOut o)) := by
  cases i with
  | nop | hlt | ret => exact .ok (agreeButPort_of_no_event rfl rfl)
  | prn | pra => exact withReg_answersAlike _ fun _ => ⟨[_], rfl, rfl⟩
  | push | pop | call | jmp | jeq | jne | inc | dec | ldi =>
    exact withReg_answersAlike _ fun _ => agreeButPort_of_no_event rfl rfl
  | ld | add | mul | cmp =>
    exact withReg2_answersAlike _ _ fun _ _ => agreeButPort_of_no_event rfl rfl
  -- The placeholders raise, whatever the state (R210).
  | iret | int | jgt | jlt | jle | jge | not | st | sub | div | mod | and | or | xor | shl | shr =>
    exact .error _

/-- A state and the same with another port take steps that print the same. -/
theorem simulates_agreeButPort (s : State) (o : List OutputEvent) :
    Simulates (AgreeButPort s o) s (s.withOut o) :=
  ⟨rfl, rfl, fun _ => agreeButPort_of_no_event rfl rfl, handled_withOut_answersAlike s o,
    fun i _ _ => agreeButPort_advance i⟩

/-- Settles O28: the step beside the other port appends the same events. -/
theorem thePortIsNeverRead : Obligations.ThePortIsNeverRead := by
  intro s t o h
  obtain ⟨t', hstep, es, hout, rfl⟩ := step_simulation (simulates_agreeButPort s o) h
  exact ⟨es, hout, hstep⟩

end Sys2Proof.Machine

/-! ## What FL, the run state and the fault record owe to the instruction (spec 10_state.md)

CMP alone writes FL, HLT alone halts, and a fault is the only other way to write the run state. -/

namespace Sys2Proof.Machine

open Sys2Proof.Claims

/-! ### The frames -/

/-- A handler that completes keeps FL, CMP's excepted (R117). -/
theorem handled_keeps_fl {i : Instr} {s u : State} (h : handled i s = .ok u) (hi : ¬isCompare i) :
    u.fl = s.fl := by
  cases i with
  | cmp => exact absurd trivial hi
  | nop | hlt | ret => cases h; rfl
  | push | pop | prn | pra | call | jmp | jeq | jne | inc | dec | ldi =>
    exact withReg_ok_of_forall (P := (·.fl = s.fl)) h fun _ => rfl
  | ld | add | mul => exact withReg2_ok_of_forall (P := (·.fl = s.fl)) h fun _ _ => rfl
  -- The placeholders raise, so none of them completes (R210).
  | iret | int | jgt | jlt | jle | jge | not | st | sub | div | mod | and | or | xor | shl | shr =>
    cases h

/-- Settles O21: no other handler writes FL, and neither the advance nor a fault does. -/
theorem onlyCompareWritesTheFlags : Obligations.OnlyCompareWritesTheFlags := by
  intro i s t h hi
  rcases exec_next h with ⟨u, hu, rfl⟩ | ⟨r, -, rfl⟩
  · rw [advance_fl, handled_keeps_fl hu hi]
  · exact s.takeFault_fl r

/-- Settles O24: HLT raises nothing, and any other handler keeps both or raises. -/
theorem onlyHltAndFaultsWriteTheRunState : Obligations.OnlyHltAndFaultsWriteTheRunState := by
  intro i s t h
  by_cases hi : i = .hlt
  · subst hi
    cases (exec_hlt s).symm.trans h
    exact .inl ⟨rfl, rfl, rfl⟩
  · rcases exec_next h with ⟨u, hu, rfl⟩ | ⟨r, -, rfl⟩
    · refine .inr (.inl ⟨hi, ?_, ?_⟩)
      · rw [advance_runState, handled_keeps_runState hu hi]
      · rw [advance_fault, handled_keeps_fault hu]
    · exact .inr (.inr ⟨hi, _, _, faultTaken_takeFault s r⟩)

/-! ### The step and the instruction at pc -/

/-- A window is HLT just when its opcode byte is HLT's (D14). -/
theorem decode_of_hlt_opcode {w : Window} (h : w.op = 0x01) : decode w = .ok .hlt := by
  obtain ⟨⟨-, hdecode⟩, -⟩ := hltHaltsAndAdvances
  rw [← hdecode w.a w.b, ← h]

/-- Settles O19: no handler but HLT's writes the run state, and a fault writes FAULTED. -/
theorem onlyHltHalts : Obligations.OnlyHltHalts := by
  intro s t hrun hstep
  constructor
  · intro hhalted
    rcases step_next hstep with ⟨r, rfl⟩ | ⟨i, u, hdec, hu, rfl⟩
    · cases hhalted
    · obtain ⟨hop, -⟩ := decode_ok hdec
      by_cases hi : i = .hlt
      · subst hi; exact hop.symm
      · rw [advance_runState, handled_keeps_runState hu hi, hrun] at hhalted
        cases hhalted
  · intro hop
    have hdec : decode (fetch s) = .ok .hlt := decode_of_hlt_opcode hop
    rw [step_of_decoded hrun hdec, exec_hlt] at hstep
    cases hstep
    exact s.halt_runState

/-- Settles O13: addresses are bytes, so the window's are modulo 256, and RUNNING with a decoded
window leaves `step` only `exec`. -/
theorem stepRunsTheDecodedInstruction : Obligations.StepRunsTheDecodedInstruction := by
  refine fun s i hrun hdec => ⟨rfl, fun x hx => ?_, fun x hx => ?_, step_of_decoded hrun hdec⟩
  · rw [BitVec.eq_of_toNat_eq (hx.trans (BitVec.toNat_add s.pc 1).symm), fetch]
  · rw [BitVec.eq_of_toNat_eq (hx.trans (BitVec.toNat_add s.pc 2).symm), fetch]

/-- The byte at an address is what the fetch reads there, wherever in the window it lies. -/
theorem nextFetchSees_of_load {t : State} {x v : Byte} (h : t.load x = v) : NextFetchSees x v t :=
  ⟨fun hpc => (congrArg t.load hpc).trans h, fun hpc => (congrArg t.load hpc).trans h,
    fun hpc => (congrArg t.load hpc).trans h⟩

/-- Settles O42: the next fetch reads memory, where the push has left its byte. -/
theorem stackWritesAreSeenByTheNextFetch : Obligations.StackWritesAreSeenByTheNextFetch := by
  refine fun s t ra => ⟨fun h => ?_, fun h => ?_⟩
  · cases (exec_push s ra).symm.trans h
    exact nextFetchSees_of_load ((s.load_openSlot_storeTop_self _).trans (s.reg_openSlot ra))
  · cases (exec_call s ra).symm.trans h
    exact nextFetchSees_of_load (s.load_openSlot_storeTop_self _)

/-- Settles O53: each run state has its own status. -/
theorem exitStatusFollowsTheRunState : Obligations.ExitStatusFollowsTheRunState :=
  fun s => ⟨fun h => by rw [State.exitStatus, h], exitStatus_of_halted,
    fun h => by rw [State.exitStatus, h]⟩

end Sys2Proof.Machine

/-! ## The start state and the canonical memory (spec 10_state.md section 8, 20_memory.md section 1) -/

namespace Sys2Proof.Machine

open Sys2Proof.Claims

namespace Memory

/-! ### Reading a sequence of bytes that was written -/

/-- The distance to the next address is one less, but for that of an address to itself. -/
theorem toNat_sub_add_one_of_ne {x a : Byte} (h : x ≠ a) :
    (x - a).toNat = (x - (a + 1)).toNat + 1 := by
  have hne : x.toNat ≠ a.toNat := mt BitVec.eq_of_toNat_eq h
  bv_omega

/-- A read after at most 256 bytes were written from `a` on: the byte at that distance from `a`, or
what was there before. -/
theorem readByte_writeBytes (m : Memory) (a x : Byte) {bytes : List Byte} (h : bytes.length ≤ 256) :
    (m.writeBytes a bytes).readByte x = bytes.getD (x - a).toNat (m.readByte x) := by
  induction bytes generalizing m a with
  | nil => rfl
  | cons v rest ih =>
    rw [List.length_cons] at h
    rw [writeBytes, ih _ _ (by omega), readByte_writeByte]
    by_cases hx : x = a
    · subst hx
      have hlast : (x - (x + 1)).toNat = 255 := by
        rw [← BitVec.sub_sub, BitVec.sub_self]; rfl
      rw [if_pos rfl, BitVec.sub_self, hlast, List.getD_eq_default _ _ (by omega)]
      rfl
    · rw [if_neg hx, toNat_sub_add_one_of_ne hx, List.getD_cons_succ]

/-! ### Memories that read alike -/

/-- Below its first address a canonical memory lists nothing. -/
theorem findCell_of_lt {lo k : Nat} {m : Memory} (h : wfFrom lo m = true) (hk : k < lo) :
    m.findCell k = Config.unlistedByte := by
  induction m generalizing lo with
  | nil => rfl
  | cons c rest ih =>
    obtain ⟨k', v⟩ := c
    simp only [wfFrom, Bool.and_eq_true, decide_eq_true_eq] at h
    obtain ⟨⟨⟨hlo, -⟩, -⟩, hrest⟩ := h
    rw [findCell, if_neg (by omega), ih hrest (by omega)]

/-- What the canonical form says of a first entry, and what it leaves to the rest. -/
theorem wfFrom_cons {lo k : Nat} {v : Byte} {rest : Memory} :
    wfFrom lo ((k, v) :: rest) = true ↔
      lo ≤ k ∧ k < Config.memorySize ∧ v ≠ Config.unlistedByte ∧ wfFrom (k + 1) rest = true := by
  simp [wfFrom, and_assoc]

/-- Two memories read alike at the addresses of the address space. -/
def ReadAlike (m m' : Memory) : Prop := ∀ k < Config.memorySize, m.findCell k = m'.findCell k

theorem ReadAlike.symm {m m' : Memory} (h : ReadAlike m m') : ReadAlike m' m :=
  fun k hk => (h k hk).symm

/-- A canonical memory that reads alike begins no higher: below its first address it lists nothing. -/
theorem le_of_readAlike_cons {lo lo' k : Nat} {v : Byte} {rest m' : Memory}
    (h : wfFrom lo ((k, v) :: rest) = true) (h' : wfFrom lo' m' = true)
    (hread : ReadAlike ((k, v) :: rest) m') : lo' ≤ k := by
  obtain ⟨-, hk, hv, -⟩ := wfFrom_cons.1 h
  by_contra hlt
  have hfound : findCell ((k, v) :: rest) k = v := if_pos rfl
  exact hv (hfound.symm.trans ((hread k hk).trans (findCell_of_lt h' (by omega))))

/-- No entry of a canonical memory reads like a memory that lists nothing. -/
theorem not_readAlike_cons_nil {lo k : Nat} {v : Byte} {rest : Memory}
    (h : wfFrom lo ((k, v) :: rest) = true) : ¬ReadAlike ((k, v) :: rest) [] := by
  intro hread
  have hle : k + 1 ≤ k := le_of_readAlike_cons h (m' := []) rfl hread
  omega

/-- Behind first entries at the same address the rests read alike too: neither lists that address. -/
theorem readAlike_of_cons {k : Nat} {v v' : Byte} {rest rest' : Memory}
    (h : wfFrom (k + 1) rest = true) (h' : wfFrom (k + 1) rest' = true)
    (hread : ReadAlike ((k, v) :: rest) ((k, v') :: rest')) : ReadAlike rest rest' := by
  intro j hj
  by_cases hjk : k = j
  · rw [findCell_of_lt h (by omega), findCell_of_lt h' (by omega)]
  · simpa only [findCell, if_neg hjk] using hread j hj

/-- Canonical memories that read alike are equal: their first entries are, and then their rests. -/
theorem eq_of_readAlike {lo lo' : Nat} {m m' : Memory} (h : wfFrom lo m = true)
    (h' : wfFrom lo' m' = true) (hread : ReadAlike m m') : m = m' := by
  induction m generalizing lo lo' m' with
  | nil =>
    cases m' with
    | nil => rfl
    | cons => exact absurd hread.symm (not_readAlike_cons_nil h')
  | cons c rest ih =>
    cases m' with
    | nil => exact absurd hread (not_readAlike_cons_nil h)
    | cons c' rest' =>
      obtain ⟨k, v⟩ := c
      obtain ⟨k', v'⟩ := c'
      obtain ⟨-, hk, hv, hrest⟩ := wfFrom_cons.1 h
      obtain ⟨-, hk', hv', hrest'⟩ := wfFrom_cons.1 h'
      have hle : k' ≤ k :=
        le_of_readAlike_cons h (wfFrom_cons.2 ⟨le_rfl, hk', hv', hrest'⟩) hread
      have hge : k ≤ k' :=
        le_of_readAlike_cons h' (wfFrom_cons.2 ⟨le_rfl, hk, hv, hrest⟩) hread.symm
      obtain rfl : k = k' := Nat.le_antisymm hge hle
      have hvalue : v = v' := by simpa only [findCell, if_pos] using hread k hk
      rw [hvalue, ih hrest hrest' (readAlike_of_cons hrest hrest' hread)]

/-- Every address of the address space is a byte. -/
theorem readAlike_of_readByte {m m' : Memory} (h : ∀ x, m.readByte x = m'.readByte x) :
    ReadAlike m m' := by
  intro k hk
  have hbyte : (BitVec.ofNat 8 k).toNat = k := (BitVec.toNat_ofNat k 8).trans (Nat.mod_eq_of_lt hk)
  simpa only [readByte, hbyte] using h (BitVec.ofNat 8 k)

end Memory

/-- Settles O6: by the entries of the two lists, which rise by address and list no unlisted byte. -/
theorem canonicalMemoriesThatReadAlikeAreEqual : Obligations.CanonicalMemoriesThatReadAlikeAreEqual :=
  fun _ _ h h' hread => Memory.eq_of_readAlike h h' (Memory.readAlike_of_readByte hread)

/-- Settles O1: the image is written from address 0, so a byte of it stands at its own number. -/
theorem startStateHoldsTheImage : Obligations.StartStateHoldsTheImage := by
  refine fun image hlen => ⟨State.reset_reg, rfl, rfl, fun x => ?_, rfl, rfl, rfl, rfl⟩
  have hread := Memory.readByte_writeBytes [] Config.entryPoint x hlen
  have hdistance : x - Config.entryPoint = x := BitVec.sub_zero x
  rw [hdistance] at hread
  exact hread

end Sys2Proof.Machine

/-! ## The invariant and the ends of a run (spec 40_cycle.md, 60_exceptions.md section 1)

A start state has the invariant. A step keeps it: what a handler writes keeps memory canonical and FL
legal, and a fault is taken with a record that tells what the order of R214 found in the window
(`step_tells_or_completes`). Runs keep what every step keeps, and stop for good when the core does. -/

namespace Sys2Proof.Machine

open Sys2Proof.Claims

/-! ### The start -/

/-- Without a record a core that has not FAULTED is consistent. -/
theorem faultConsistent_of_no_fault {s : State} (hrun : s.runState ≠ .faulted)
    (hfault : s.fault = none) : FaultConsistent s := by
  simp [FaultConsistent, hrun, hfault]

/-- Settles O3: the image's bytes are written to an empty, so canonical, memory. -/
theorem everyStartStateSatisfiesTheInvariant : Obligations.EveryStartStateSatisfiesTheInvariant :=
  fun image => ⟨Memory.wf_writeBytes Memory.wf_reset _ image, .inl rfl,
    faultConsistent_of_no_fault nofun rfl⟩

/-- Settles O2: reset is the start state of the empty image. -/
theorem resetSatisfiesTheInvariant : Obligations.ResetSatisfiesTheInvariant :=
  everyStartStateSatisfiesTheInvariant []

/-! ### What a handler keeps -/

/-- A handler that completes keeps the canonical form: only a push writes memory (R127). -/
theorem handled_keeps_wf {i : Instr} {s u : State} (h : handled i s = .ok u) (hs : s.mem.wf = true) :
    u.mem.wf = true := by
  cases i with
  | push | call =>
    exact withReg_ok_of_forall (P := (·.mem.wf = true)) h fun _ => Memory.wf_writeByte hs _ _
  | nop | hlt | ret => cases h; exact hs
  | pop | prn | pra | jmp | jeq | jne | inc | dec | ldi =>
    exact withReg_ok_of_forall (P := (·.mem.wf = true)) h fun _ => hs
  | ld | add | mul | cmp => exact withReg2_ok_of_forall (P := (·.mem.wf = true)) h fun _ _ => hs
  -- The placeholders raise, so none of them completes (R210).
  | iret | int | jgt | jlt | jle | jge | not | st | sub | div | mod | and | or | xor | shl | shr =>
    cases h

/-- A comparison leaves one of FL's four values (R190, R191). -/
theorem flagsLegal_compareFlags (x y : Byte) : FlagsLegal (compareFlags x y) := by
  rcases compareFlags_cases x y with ⟨-, h⟩ | ⟨-, h⟩ | ⟨-, h⟩
  · exact .inr (.inl h)
  · exact .inr (.inr (.inl h))
  · exact .inr (.inr (.inr h))

/-- A handler that completes keeps FL legal: CMP writes flags of a comparison, no other writes it. -/
theorem handled_keeps_flagsLegal {i : Instr} {s u : State} (h : handled i s = .ok u)
    (hs : FlagsLegal s.fl) : FlagsLegal u.fl := by
  by_cases hi : isCompare i
  · cases i with
    | cmp a b =>
      exact withReg2_ok_of_forall (P := (FlagsLegal ·.fl)) h fun _ _ => flagsLegal_compareFlags _ _
    | _ => exact hi.elim
  · exact handled_keeps_fl h hi ▸ hs

/-! ### What a fault records -/

/-- The record that a raised fault leaves tells a fault of the window (R208). -/
def Raise.Tells (r : Raise) (s : State) : Prop := FaultRecord.tells ⟨r.kind, s.pc, r.byte⟩ s

/-- A fault taken with such a record is consistent: pc and the window stay. -/
theorem faultConsistent_takeFault {s : State} {r : Raise} (h : r.Tells s) :
    FaultConsistent (s.takeFault r) :=
  ⟨by simp, fun _ hf => Option.some.inj hf ▸ h⟩

/-- The first illegal byte is one of the register bytes, and illegal. -/
theorem firstIllegalByte_eq_some {bytes : List Byte} {r : Byte} (h : firstIllegalByte bytes = some r) :
    8 ≤ r.toNat ∧ r ∈ bytes :=
  ⟨by simpa using List.find?_some h, List.mem_of_find?_eq_some h⟩

/-- A RUNNING core takes a fault that the window at pc raises, or its instruction's handler
completes. -/
theorem step_tells_or_completes {s : State} (hrun : s.runState = .running) :
    (∃ r : Raise, step s = .next (s.takeFault r) ∧ r.Tells s) ∨
      ∃ i u, handled i s = .ok u ∧ step s = .next (advance i u) := by
  cases hst : opcodeStatus (fetch s).op with
  | unknown =>
    exact .inl ⟨_, step_of_unknown hrun (opcodeStatus_eq_unknown_iff.1 hst), rfl, rfl, hst⟩
  | unimplemented => exact .inl ⟨_, step_of_unimplemented hrun hst, rfl, rfl, hst⟩
  | implemented =>
    obtain ⟨i, hdec, -⟩ := decode_of_status_ne_unknown (w := fetch s) (by simp [hst])
    rcases step_of_implemented hrun hdec hst with ⟨r, hr, hstep⟩ | ⟨-, u, hu, hstep⟩
    · obtain ⟨hillegal, hmem⟩ := firstIllegalByte_eq_some hr
      exact .inl ⟨_, hstep, rfl, hillegal, i, hdec, hmem⟩
    · exact .inr ⟨i, u, hu, hstep⟩

/-! ### The step and the run -/

/-- A RUNNING core that is consistent has no record. -/
theorem fault_eq_none_of_running {s : State} (h : FaultConsistent s) (hrun : s.runState = .running) :
    s.fault = none := by
  obtain ⟨hiff, -⟩ := h
  simpa [hrun] using hiff

/-- Settles O4: a fault is taken with a record that tells it, and a handler that completes keeps each
of the three parts; the advance writes pc alone. -/
theorem everyStepKeepsTheInvariant : Obligations.EveryStepKeepsTheInvariant := by
  rintro s t ⟨hmem, hfl, hfaults⟩ hstep
  have hrun := running_of_step_next hstep
  rcases step_tells_or_completes hrun with ⟨r, h, htells⟩ | ⟨i, u, hu, h⟩
  · cases h.symm.trans hstep
    exact ⟨hmem, hfl, faultConsistent_takeFault htells⟩
  · cases h.symm.trans hstep
    refine ⟨?_, ?_, faultConsistent_of_no_fault ?_ ?_⟩
    · rw [advance_mem]; exact handled_keeps_wf hu hmem
    · rw [advance_fl]; exact handled_keeps_flagsLegal hu hfl
    · rw [advance_runState]; exact handled_runState_ne_faulted hu (by simp [hrun])
    · rw [advance_fault, handled_keeps_fault hu, fault_eq_none_of_running hfaults hrun]

/-- What every step keeps, every run keeps. -/
theorem reaches_keeps {P : State → Prop} (hstep : ∀ s t, P s → step s = .next t → P t)
    {n : Nat} {s t : State} (hs : P s) (h : Reaches n s t) : P t := by
  induction n generalizing s with
  | zero => exact reaches_zero.1 h ▸ hs
  | succ n ih =>
    obtain ⟨u, hu, hrest⟩ := reaches_succ.1 h
    exact ih (hstep s u hs hu) hrest

/-- Settles O5: by the number of steps. -/
theorem everyRunKeepsTheInvariant : Obligations.EveryRunKeepsTheInvariant :=
  fun _ _ _ hs h => reaches_keeps everyStepKeepsTheInvariant hs h

/-! ### The ends of a run -/

/-- A run from a stopped core goes nowhere. -/
theorem eq_of_reaches_of_stopped {n : Nat} {s t : State} (hs : s.runState ≠ .running)
    (h : Reaches n s t) : s = t := by
  cases n with
  | zero => exact reaches_zero.1 h
  | succ n =>
    obtain ⟨u, hu, -⟩ := reaches_succ.1 h
    exact absurd (running_of_step_next hu) hs

/-- A run stops in one state at most: a step has one outcome (R165). -/
theorem stopped_unique {m n : Nat} {s t t' : State} (h : Reaches m s t) (h' : Reaches n s t')
    (ht : t.runState ≠ .running) (ht' : t'.runState ≠ .running) : t = t' := by
  induction m generalizing n s with
  | zero => exact eq_of_reaches_of_stopped ht (reaches_zero.1 h ▸ h')
  | succ m ih =>
    cases n with
    | zero => exact (eq_of_reaches_of_stopped ht' (reaches_zero.1 h' ▸ h)).symm
    | succ n =>
      obtain ⟨u, hu, hrest⟩ := reaches_succ.1 h
      obtain ⟨u', hu', hrest'⟩ := reaches_succ.1 h'
      cases hu.symm.trans hu'
      exact ih hrest hrest'

/-- Settles O20: the two ends would be one state, both HALTED and FAULTED. -/
theorem runEndsInAtMostOneWay : Obligations.RunEndsInAtMostOneWay := by
  rintro s ⟨⟨m, t, h, ht⟩, n, t', h', ht'⟩
  obtain rfl : t = t' := stopped_unique h h' (by simp [ht]) (by simp [ht'])
  cases ht.symm.trans ht'

end Sys2Proof.Machine

/-! ## The program file (spec 70_reset_and_hazards.md section 2, 30_encoding.md section 6)

A line of a program file is stripped to its eight digits, which read as the byte; the text is split
back into its lines; so the loader's image is the list of the bytes, if it is not too long. -/

namespace Sys2Proof.Machine

open Sys2Proof.Claims

/-! ### The digits of a byte -/

/-- The digit of a byte's bit `k`. -/
def bitDigit (v : Byte) (k : Nat) : Char := if v.getLsbD k then '1' else '0'

/-- A digit is 0 or 1. -/
theorem bitDigit_cases (v : Byte) (k : Nat) : bitDigit v k = '0' ∨ bitDigit v k = '1' := by
  unfold bitDigit
  split
  · exact .inr rfl
  · exact .inl rfl

/-- The digits of a byte are those of its bits 7 down to 0. -/
theorem binaryDigits_eq (v : Byte) : binaryDigits v = (List.range 8).reverse.map (bitDigit v) := rfl

/-- Every digit of a byte is 0 or 1. -/
theorem eq_of_mem_binaryDigits {v : Byte} {c : Char} (h : c ∈ binaryDigits v) :
    c = '0' ∨ c = '1' := by
  obtain ⟨k, -, rfl⟩ := List.mem_map.1 (binaryDigits_eq v ▸ h)
  exact bitDigit_cases v k

/-- A digit read appends its bit to the value so far. -/
theorem parseBinaryFrom_bitDigit_cons (acc : Nat) (v : Byte) (k : Nat) (rest : List Char) :
    parseBinaryFrom acc (bitDigit v k :: rest) =
      parseBinaryFrom (2 * acc + (v.getLsbD k).toNat) rest := by
  unfold bitDigit
  cases v.getLsbD k <;> rfl

/-- Bit `k` appended to the bits above it gives the bits from it on. -/
theorem two_mul_div_add_getLsbD (v : Byte) (k : Nat) :
    2 * (v.toNat / 2 ^ (k + 1)) + (v.getLsbD k).toNat = v.toNat / 2 ^ k := by
  have hbit : (v.getLsbD k).toNat = v.toNat / 2 ^ k % 2 := Nat.toNat_testBit v.toNat k
  rw [hbit, Nat.pow_succ, ← Nat.div_div_eq_div_mul, Nat.div_add_mod]

/-- The digits from bit `n - 1` down complete the value of the bits above to the byte's. -/
theorem parseBinaryFrom_bits (v : Byte) (n : Nat) :
    parseBinaryFrom (v.toNat / 2 ^ n) ((List.range n).reverse.map (bitDigit v)) = some v.toNat := by
  induction n with
  | zero => simp [parseBinaryFrom]
  | succ n ih =>
    rw [List.range_succ, List.reverse_append, List.reverse_singleton, List.singleton_append,
      List.map_cons, parseBinaryFrom_bitDigit_cons, two_mul_div_add_getLsbD, ih]

/-- The digits of a byte read as its value. -/
theorem parseBinaryFrom_binaryDigits (v : Byte) :
    parseBinaryFrom 0 (binaryDigits v) = some v.toNat := by
  have hnone : v.toNat / 2 ^ 8 = 0 := Nat.div_eq_of_lt v.isLt
  rw [binaryDigits_eq, ← hnone, parseBinaryFrom_bits]

/-! ### A line -/

/-- A line of a program file: a byte's digits, a blank and a comment (R154). -/
def programLine (l : Byte × List Char) : List Char := binaryDigits l.1 ++ ' ' :: '#' :: l.2

/-- The digits of a byte hold no character but 0 and 1. -/
theorem not_mem_binaryDigits {c : Char} (h0 : c ≠ '0') (h1 : c ≠ '1') (v : Byte) :
    c ∉ binaryDigits v :=
  fun hmem => (eq_of_mem_binaryDigits hmem).elim h0 h1

/-- What stands before the comment is the digits and the blank. -/
theorem stripComment_programLine (l : Byte × List Char) :
    stripComment (programLine l) = binaryDigits l.1 ++ [' '] := by
  have hdigits : ∀ c ∈ binaryDigits l.1, decide (c ≠ '#') = true := fun c hc =>
    decide_eq_true fun h => not_mem_binaryDigits (by decide) (by decide) l.1 (h ▸ hc)
  rw [stripComment, programLine, List.takeWhile_append_of_pos hdigits]
  rfl

theorem binaryDigits_ne_nil (v : Byte) : binaryDigits v ≠ [] := nofun

/-- A text that begins with a digit has no white space to drop. -/
theorem dropWhile_isWhitespace_of_digits {cs : List Char} (hne : cs ≠ [])
    (h : ∀ c ∈ cs, c = '0' ∨ c = '1') (rest : List Char) :
    (cs ++ rest).dropWhile (·.isWhitespace) = cs ++ rest := by
  cases cs with
  | nil => exact absurd rfl hne
  | cons c cs =>
    rcases h c (List.mem_cons_self ..) with rfl | rfl <;> rfl

/-- Trimming takes the blank behind the digits, and stops at a digit from either end. -/
theorem trimLine_binaryDigits_blank (v : Byte) :
    trimLine (binaryDigits v ++ [' ']) = binaryDigits v := by
  have hfront := dropWhile_isWhitespace_of_digits (binaryDigits_ne_nil v)
    (fun _ => eq_of_mem_binaryDigits) [' ']
  have hback := dropWhile_isWhitespace_of_digits (mt List.reverse_eq_nil_iff.1 (binaryDigits_ne_nil v))
    (fun _ hc => eq_of_mem_binaryDigits (List.mem_reverse.1 hc)) []
  rw [List.append_nil] at hback
  have hblank : (' ' :: (binaryDigits v).reverse).dropWhile (·.isWhitespace) =
      (binaryDigits v).reverse.dropWhile (·.isWhitespace) := rfl
  rw [trimLine, hfront, List.reverse_append, List.reverse_singleton, List.singleton_append, hblank,
    hback, List.reverse_reverse]

/-- A line that strips to a literal below 256 gives its value. -/
theorem parseLine_of_literal {line : List Char} {v : Byte} (hne : trimLine (stripComment line) ≠ [])
    (hvalue : parseBinaryFrom 0 (trimLine (stripComment line)) = some v.toNat) :
    parseLine line = .ok (some v) := by
  unfold parseLine
  split
  next hnil => exact absurd hnil hne
  next c rest hcons =>
    rw [← hcons, hvalue]
    exact (if_pos v.isLt).trans (by rw [BitVec.ofNat_toNat, BitVec.setWidth_eq])

/-- A line gives its byte. -/
theorem parseLine_programLine (l : Byte × List Char) : parseLine (programLine l) = .ok (some l.1) := by
  have hstrip : trimLine (stripComment (programLine l)) = binaryDigits l.1 := by
    rw [stripComment_programLine, trimLine_binaryDigits_blank]
  exact parseLine_of_literal (hstrip ▸ binaryDigits_ne_nil l.1)
    (hstrip ▸ parseBinaryFrom_binaryDigits l.1)

/-! ### The file -/

/-- A text has at least one line. -/
theorem splitLines_ne_nil (text : List Char) : splitLines text ≠ [] := by
  cases text with
  | nil => exact nofun
  | cons c rest =>
    rw [splitLines]
    split
    · exact nofun
    · split <;> exact nofun

/-- A line feed ends an empty line. -/
theorem splitLines_newline_cons (text : List Char) :
    splitLines ('\n' :: text) = [] :: splitLines text := by
  rw [splitLines]
  split
  next hnil => exact absurd hnil (splitLines_ne_nil text)
  next hcons => rw [if_pos rfl, hcons]

/-- A line feed ends a line that holds none. -/
theorem splitLines_line_append {line : List Char} (h : '\n' ∉ line) (text : List Char) :
    splitLines (line ++ '\n' :: text) = line :: splitLines text := by
  induction line with
  | nil => exact splitLines_newline_cons text
  | cons c cs ih =>
    obtain ⟨hc, hcs⟩ := not_or.1 (mt List.mem_cons.2 h)
    rw [List.cons_append, splitLines, ih hcs]
    exact if_neg (Ne.symm hc)

/-- A line of a program file holds no line feed when its comment holds none. -/
theorem newline_not_mem_programLine {l : Byte × List Char} (h : '\n' ∉ l.2) :
    '\n' ∉ programLine l := by
  have hdigits : '\n' ∉ binaryDigits l.1 := not_mem_binaryDigits (by decide) (by decide) l.1
  simp [programLine, hdigits, h]

/-- A program file is split into its lines and an empty one. -/
theorem splitLines_programText {lines : List (Byte × List Char)} (h : ∀ l ∈ lines, '\n' ∉ l.2) :
    splitLines (programText lines) = lines.map programLine ++ [[]] := by
  induction lines with
  | nil => rfl
  | cons l rest ih =>
    obtain ⟨hl, hrest⟩ := List.forall_mem_cons.1 h
    rw [programText, List.map_cons, List.cons_append, ← ih hrest]
    exact splitLines_line_append (newline_not_mem_programLine hl) _

/-- The lines of a program file give their bytes, and the empty one gives none. -/
theorem parseLines_programLines (lines : List (Byte × List Char)) :
    parseLines (lines.map programLine ++ [[]]) = .ok (lines.map (·.1)) := by
  induction lines with
  | nil => rfl
  | cons l rest ih => simp [parseLines, parseLine_programLine, ih]

/-- Settles O52: the bytes of the lines are the image, and its length decides. -/
theorem programFileLoadsItsBytes : Obligations.ProgramFileLoadsItsBytes := by
  intro lines hlines
  have himage : parseLines (splitLines (programText lines)) = .ok (lines.map (·.1)) := by
    rw [splitLines_programText hlines, parseLines_programLines]
  refine ⟨fun hlen => ?_, fun hlen => ?_⟩
  · simp [loadProgram, himage, Config.memorySize, hlen]
  · simp [loadProgram, himage, Config.memorySize, hlen]

end Sys2Proof.Machine
